-- ==== Sys2Proof/Word.lean ====
section
/-! DEFINITION. The one word type of the LS-8: every register, memory cell, opcode, operand and output value is
an unsigned byte (`00_scope.md` R4, R5). -/
namespace Sys2Proof

/-- An 8-bit value, bit 7 the most significant (`00_scope.md` R5). -/
abbrev Byte := BitVec 8

end Sys2Proof
end

