-- ==== Sys2Proof/Config.lean ====
section
/-! DEFINITION. The parameters of `00_scope.md` R4 that the source itself fixes. The parameters the source leaves
open stand, under the same namespace `Config`, where a later repair may mend them: the opcode bytes `OPC` in
Decode.lean, the flag positions and the reset values in Machine/Params.lean. The spec leaves no value free, so
there is no opaque constant. -/
namespace Sys2Proof

/-- `NREG`: registers 0 to 7 (`10_state.md` R10). -/
abbrev Config.nreg : Nat := 8

/-- `MEM_SIZE`: cells 0 to 255 (`20_memory.md` R30). -/
abbrev Config.memSize : Nat := 256

/-- `IM_REG`: the interrupt-mask alias, inert (`10_state.md` R11, R13). -/
abbrev Config.imReg : Fin Config.nreg := 5

/-- `IS_REG`: the interrupt-status alias, inert (`10_state.md` R11, R13). -/
abbrev Config.isReg : Fin Config.nreg := 6

/-- `SP_REG`: the stack pointer (`10_state.md` R11, R14). -/
abbrev Config.spReg : Fin Config.nreg := 7

end Sys2Proof
end

