-- ==== Sys2Proof/Syntax.lean ====
section
/-! DEFINITION. The instructions: one constructor for each of the 19 rows of `spec/opcode_table.json`. An operand is
the operand BYTE as it stands in memory: decoding reads it and does not interpret it (`40_run_loop.md` R63), so a
register operand of 8 or more is a term of `Instr`, which its meaning answers with the fault of `30_encoding.md` R51. -/
namespace Sys2Proof

/-- An instruction with its operand bytes in memory order: `a` the first, `b` or `imm` the second
(`30_encoding.md` R45, formats F0, F1, F2R, F2I). -/
inductive Instr where
  | hlt
  | ldi (a imm : Byte)
  | prn (a : Byte)
  | push (a : Byte)
  | pop (a : Byte)
  | add (a b : Byte)
  | sub (a b : Byte)
  | mul (a b : Byte)
  | div (a b : Byte)
  | mod (a b : Byte)
  | inc (a : Byte)
  | dec (a : Byte)
  | cmp (a b : Byte)
  | and (a b : Byte)
  | or (a b : Byte)
  | xor (a b : Byte)
  | not (a : Byte)
  | shl (a b : Byte)
  | shr (a b : Byte)
  deriving DecidableEq, Repr

/-- The operand bytes, in memory order (`30_encoding.md` R45). -/
def Instr.operands : Instr → List Byte
  | .hlt => []
  | .prn a | .push a | .pop a | .inc a | .dec a | .not a => [a]
  | .ldi a b | .add a b | .sub a b | .mul a b | .div a b | .mod a b | .cmp a b | .and a b | .or a b
  | .xor a b | .shl a b | .shr a b => [a, b]

/-- The operand bytes that name a register: all of them but LDI's immediate (`30_encoding.md` R51, R52). -/
def Instr.regOperands : Instr → List Byte
  | .ldi a _ => [a]
  | i => i.operands

/-- The operand byte that names the register the instruction writes as its destination (`10_state.md` section 1). PUSH
and POP also write register 7, which no operand names. -/
def Instr.dest? : Instr → Option Byte
  | .hlt | .prn _ | .push _ | .cmp _ _ => none
  | .ldi a _ | .pop a | .add a _ | .sub a _ | .mul a _ | .div a _ | .mod a _ | .inc a | .dec a | .and a _ | .or a _
  | .xor a _ | .not a | .shl a _ | .shr a _ => some a

end Sys2Proof
end

