-- ==== Sys2Proof/WellFormed.lean ====
section
/-! DEFINITION. Which instructions are well-formed: every operand byte that names a register is below 8
(`30_encoding.md` R51). An ill-formed one is still decoded and dispatched; its meaning faults
(`60_exceptions.md` R93). -/
namespace Sys2Proof

/-- A byte that names a register: 0 to 7 (`30_encoding.md` R51). -/
abbrev NamesRegister (o : Byte) : Prop := o.toNat < Config.nreg

/-- Every register operand of the instruction names a register. LDI's immediate is not checked (`30_encoding.md` R52). -/
abbrev WellFormed (i : Instr) : Prop := ∀ o ∈ i.regOperands, NamesRegister o

end Sys2Proof
end

