-- ==== Sys2Proof/Decode.lean ====
section
/-! DEFINITION. The opcode byte's fields, the opcode map, the decoder and the encoder (`30_encoding.md`). One decoder,
`decodeFrom`, reads its bytes through a function it is given, so the machine's fetch (Machine/Fetch.lean) and the
decoding of a list of bytes (`decode`) are the same definition. -/
namespace Sys2Proof

/-- The four fields of an opcode byte `AABCDDDD` (`30_encoding.md` R46). -/
structure OpcodeFields where
  /-- Bits 7-6, as they stand: 0 to 3 (R47, R48). -/
  operandCount : Nat
  /-- Bit 5 (R49). -/
  isAluOp : Bool
  /-- Bit 4 (R50). -/
  setsPc : Bool
  /-- Bits 3-0. -/
  opId : BitVec 4
  deriving DecidableEq, Repr

/-- The spec's decoder: a pure, total function of one byte (`30_encoding.md` R47). -/
def decodeByte (b : Byte) : OpcodeFields where
  operandCount := (b.extractLsb' 6 2).toNat
  isAluOp := b.getLsbD 5
  setsPc := b.getLsbD 4
  opId := b.extractLsb' 0 4

/-- The 19 mnemonics of the required opcode set (`00_scope.md` R1). -/
inductive Mnemonic where
  | hlt | ldi | prn | push | pop | add | sub | mul | div | mod | inc | dec | cmp | and | or | xor | not | shl | shr
  deriving DecidableEq, Repr

/-- The mnemonics in the order of the opcode map (`30_encoding.md` R53). -/
def Mnemonic.all : List Mnemonic :=
  [.hlt, .ldi, .prn, .push, .pop, .add, .sub, .mul, .div, .mod, .inc, .dec, .cmp, .and, .or, .xor, .not, .shl, .shr]

/-- `OPC`, the opcode assignment (`30_encoding.md` R53). HLT, LDI and PRN are the source's; the other 16 are the spec's
defaults. PRESUMED (notes/assumptions/1.md), unsafe: a program's bytes would mean other instructions on hardware that
assigns them otherwise. -/
def Config.opc : Mnemonic → Byte
  | .hlt => 0x01
  | .ldi => 0x82
  | .prn => 0x47
  | .push => 0x45
  | .pop => 0x46
  | .add => 0xA0
  | .sub => 0xA1
  | .mul => 0xA2
  | .div => 0xA3
  | .mod => 0xA4
  | .inc => 0x65
  | .dec => 0x66
  | .cmp => 0xA7
  | .and => 0xA8
  | .or => 0xAA
  | .xor => 0xAB
  | .not => 0x69
  | .shl => 0xAC
  | .shr => 0xAD

/-- The dispatch table: the whole byte is the key; none where no handler is registered (`30_encoding.md` R54, R55). -/
def Mnemonic.ofByte? (b : Byte) : Option Mnemonic :=
  Mnemonic.all.find? fun m => Config.opc m == b

/-- The mnemonic of an instruction. -/
def Instr.mnemonic : Instr → Mnemonic
  | .hlt => .hlt
  | .ldi _ _ => .ldi
  | .prn _ => .prn
  | .push _ => .push
  | .pop _ => .pop
  | .add _ _ => .add
  | .sub _ _ => .sub
  | .mul _ _ => .mul
  | .div _ _ => .div
  | .mod _ _ => .mod
  | .inc _ => .inc
  | .dec _ => .dec
  | .cmp _ _ => .cmp
  | .and _ _ => .and
  | .or _ _ => .or
  | .xor _ _ => .xor
  | .not _ => .not
  | .shl _ _ => .shl
  | .shr _ _ => .shr

/-- The instruction of a mnemonic and the operand bytes fetched; it takes as many as its format has
(`30_encoding.md` R45, `40_run_loop.md` R64). -/
def Mnemonic.build (m : Mnemonic) (o1 o2 : Byte) : Instr :=
  match m with
  | .hlt => .hlt
  | .ldi => .ldi o1 o2
  | .prn => .prn o1
  | .push => .push o1
  | .pop => .pop o1
  | .add => .add o1 o2
  | .sub => .sub o1 o2
  | .mul => .mul o1 o2
  | .div => .div o1 o2
  | .mod => .mod o1 o2
  | .inc => .inc o1
  | .dec => .dec o1
  | .cmp => .cmp o1 o2
  | .and => .and o1 o2
  | .or => .or o1 o2
  | .xor => .xor o1 o2
  | .not => .not o1
  | .shl => .shl o1 o2
  | .shr => .shr o1 o2

/-- Why no instruction was decoded, with what the failed read reported. -/
inductive Rejection (ε : Type) where
  /-- The opcode byte could not be read (`40_run_loop.md` R61). -/
  | noOpcode (why : ε)
  /-- An operand byte that the opcode byte calls for could not be read (`40_run_loop.md` R63). -/
  | noOperand (opcode : Byte) (why : ε)
  /-- All bytes were read and the opcode byte is not one of the 19 (`30_encoding.md` R55, `40_run_loop.md` R64). -/
  | unsupported (opcode : Byte)
  deriving DecidableEq, Repr

/-- The operand bytes that the count calls for, in order; an operand not called for is 0 and no handler looks at it. A
count of 3 fetches the same two bytes as 2 (`30_encoding.md` R48, `40_run_loop.md` R63, D6).
DESIGN CHOICE, the spec's D6 (notes/assumptions/5.md), safe. -/
def operandBytes {ε : Type} (read : Nat → Except ε Byte) (count : Nat) : Except ε (Byte × Byte) :=
  if count = 0 then .ok (0, 0)
  else
    match read 1 with
    | .error e => .error e
    | .ok o1 =>
      if count = 1 then .ok (o1, 0)
      else
        match read 2 with
        | .error e => .error e
        | .ok o2 => .ok (o1, o2)

/-- Steps 1 to 4 of the run loop up to the choice of the handler: opcode byte, fields, operand bytes, dispatch
(`40_run_loop.md` R61 to R64). `read k` is the byte `k` places after the opcode byte. -/
def decodeFrom {ε : Type} (read : Nat → Except ε Byte) : Except (Rejection ε) Instr :=
  match read 0 with
  | .error e => .error (.noOpcode e)
  | .ok ir =>
    match operandBytes read (decodeByte ir).operandCount with
    | .error e => .error (.noOperand ir e)
    | .ok (o1, o2) =>
      match Mnemonic.ofByte? ir with
      | none => .error (.unsupported ir)
      | some m => .ok (m.build o1 o2)

/-- Reads a list of bytes; a read past its end reports the position that is missing. -/
def listRead (bytes : List Byte) (k : Nat) : Except Nat Byte :=
  match bytes[k]? with
  | some b => .ok b
  | none => .error k

/-- The instruction that a list of bytes begins with, total on every list; bytes after it are not looked at. -/
def decode (bytes : List Byte) : Except (Rejection Nat) Instr :=
  decodeFrom (listRead bytes)

/-- The instruction's opcode byte. -/
def Instr.opcode (i : Instr) : Byte := Config.opc i.mnemonic

/-- The bytes of an instruction, lowest address first: opcode, first operand, second operand (`30_encoding.md` R45). -/
def encode (i : Instr) : List Byte := i.opcode :: i.operands

/-- The bytes of an instruction numbered as `spec/opcode_table.json` numbers them: the first byte is bits 7..0, the next
bits 15..8; every bit from `nbits` up is 0. -/
def tableBytes (nbits w : Nat) : List Byte :=
  let v := w % 2 ^ nbits
  [BitVec.ofNat 8 v, BitVec.ofNat 8 (v / 256), BitVec.ofNat 8 (v / 65536)]

/-- What the decoder reads from an instruction whose bits are `w`. -/
def decodeTableWord (nbits w : Nat) : Option Instr :=
  match decode (tableBytes nbits w) with
  | .ok i => some i
  | .error _ => none

/-- The mnemonic as the opcode table spells it. -/
def Mnemonic.text : Mnemonic → String
  | .hlt => "HLT"
  | .ldi => "LDI"
  | .prn => "PRN"
  | .push => "PUSH"
  | .pop => "POP"
  | .add => "ADD"
  | .sub => "SUB"
  | .mul => "MUL"
  | .div => "DIV"
  | .mod => "MOD"
  | .inc => "INC"
  | .dec => "DEC"
  | .cmp => "CMP"
  | .and => "AND"
  | .or => "OR"
  | .xor => "XOR"
  | .not => "NOT"
  | .shl => "SHL"
  | .shr => "SHR"

/-- An operand list as text: the first `nregs` operands are registers `R<n>`, the rest decimal numbers. -/
def operandText : Nat → List Byte → String
  | _, [] => ""
  | 0, o :: os => " " ++ toString o.toNat ++ operandText 0 os
  | n + 1, o :: os => " R" ++ toString o.toNat ++ operandText n os

/-- The assembly text of an instruction: the mnemonic in capitals, then the operands in encoding order, separated by
spaces (`30_encoding.md` R57). -/
def Instr.asm (i : Instr) : String :=
  i.mnemonic.text ++ operandText i.regOperands.length i.operands

end Sys2Proof
end

