-- ==== Sys2Proof/Machine/Params.lean ====
section
/-! DEFINITION. The parameters of `00_scope.md` R4 whose values are the spec's decisions or that a test could show
wrong: the stack's top, the reset values, what memory holds after reset, the flag positions. -/
namespace Sys2Proof

/-- `STACK_TOP`: the empty-stack marker and the reset value of register 7 (`10_state.md` R14, R24). -/
def Config.stackTop : Byte := 0xF4

/-- The reset value of registers 0 to 6 (`10_state.md` R24). -/
def Config.regReset : Byte := 0

/-- `PC_RESET`: the entry point (`70_reset_and_hazards.md` R108).
DESIGN CHOICE, the spec's D4 (notes/assumptions/3.md), unsafe. -/
def Config.pcReset : Nat := 0

/-- `FL_RESET` (`10_state.md` R24). DESIGN CHOICE, the spec's D4 (notes/assumptions/3.md), unsafe. -/
def Config.flReset : Byte := 0

/-- What an address the memory list does not name reads as: the reset contents of every cell (`10_state.md` R24,
`20_memory.md` R32). -/
def Config.memReset : Byte := 0

/-- `FL_E_BIT` (`10_state.md` R16). PRESUMED (notes/assumptions/2.md), unsafe. -/
def Config.flEBit : Nat := 0

/-- `FL_G_BIT` (`10_state.md` R16). PRESUMED (notes/assumptions/2.md), unsafe. -/
def Config.flGBit : Nat := 1

/-- `FL_L_BIT` (`10_state.md` R16). PRESUMED (notes/assumptions/2.md), unsafe. -/
def Config.flLBit : Nat := 2

end Sys2Proof
end

