-- ==== Sys2Proof/Machine/State.lean ====
section
/-! DEFINITION. The machine's state, all that `10_state.md` section 1 gives it, as plain data; the machine right after
reset; the vocabulary of faults; the reasons a step can stop. -/
namespace Sys2Proof.Machine

/-- The run loop's two states (`10_state.md` R18). -/
inductive RunState where
  | halted
  | running
  deriving DecidableEq, Repr

/-- Which space an out-of-range address or index belongs to (`60_exceptions.md` R91). -/
inductive Space where
  | mem
  | reg
  deriving DecidableEq, Repr

/-- The five fault kinds (`60_exceptions.md` R91). -/
inductive FaultKind where
  | addressOutOfRange
  | unsupportedOperation
  | divisionByZero
  | stackUnderflow
  | stackOverflow
  deriving DecidableEq, Repr

/-- The kind's own information in a fault record (`60_exceptions.md` R91). -/
inductive FaultInfo where
  /-- None beyond the common fields. -/
  | nothing
  /-- The space and the offending address or register index. -/
  | address (space : Space) (index : Nat)
  /-- The opcode byte that has no handler. -/
  | opcode (byte : Byte)
  deriving DecidableEq, Repr

/-- What `raise` is called with: a kind together with its information (`00_scope.md` R6). -/
inductive Cause where
  /-- A memory address of 256 or more, or a register index of 8 or more (`60_exceptions.md` R92, R93). -/
  | addressOutOfRange (space : Space) (index : Nat)
  /-- The opcode byte is not one of the 19 (R94). -/
  | unsupportedOperation (opcode : Byte)
  /-- The divisor register of DIV or MOD holds 0 (R95). -/
  | divisionByZero
  /-- POP with `x[7]` at or above the marker (R96). -/
  | stackUnderflow
  /-- PUSH with `x[7]` at 0 (R97). -/
  | stackOverflow
  deriving DecidableEq, Repr

/-- The fault record `(kind, code, at_pc, opcode, info)` (`10_state.md` R19, D15). -/
structure FaultRecord where
  kind : FaultKind
  code : Nat
  /-- `pc` at the start of the faulting step. -/
  atPc : Nat
  /-- The opcode byte fetched in that step; none when the opcode fetch itself faulted. -/
  opcode : Option Byte
  info : FaultInfo
  deriving DecidableEq, Repr

/-- Memory: the cells that differ from their reset contents, by rising address (`20_memory.md` R30). -/
abbrev Memory := List Host.Cell

/-- The canonical form: addresses strictly rising, every address below 256, no entry equal to what an unlisted address
reads as. -/
abbrev Memory.wf (m : Memory) : Prop :=
  m.Pairwise (fun p q => p.1 < q.1) ∧ ∀ p ∈ m, p.1 < Config.memSize ∧ p.2 ≠ Config.memReset

/-- The whole state of the core (`10_state.md`, the table of section 1). -/
structure State where
  /-- `x[0]` to `x[7]` (R10). -/
  regs : Vector Byte Config.nreg
  /-- The program counter, a natural number in [0, 256] (R15). -/
  pc : Nat
  /-- The flags register (R16). -/
  fl : Byte
  /-- Halted or Running (R18). -/
  run : RunState
  /-- The fault record, none until the first fault (R19). -/
  fault : Option FaultRecord
  /-- The 256 cells (R20). -/
  mem : Memory
  /-- What PRN has emitted, oldest first (R21). -/
  out : List Byte
  deriving DecidableEq, Repr

/-- The machine right after reset (`10_state.md` R24, `70_reset_and_hazards.md` R107): Halted, nothing loaded. -/
def State.reset : State where
  regs := #v[Config.regReset, Config.regReset, Config.regReset, Config.regReset, Config.regReset, Config.regReset,
    Config.regReset, Config.stackTop]
  pc := Config.pcReset
  fl := Config.flReset
  run := .halted
  fault := none
  mem := []
  out := []

/-- The reasons a step stops with a fault OUTCOME: there are none. Each of the LS-8's five faults has an entry that the
spec describes (`60_exceptions.md` R99: the fault record is set, `run` becomes Halted, nothing else), so a step that
faults answers a NEXT state with `State.fault` set, and `Cause` and `FaultKind` above name the five. Raised by nobody;
safe (notes/assumptions/13.md). -/
inductive Fault where
  deriving DecidableEq, Repr

/-- The reasons a step is refused. -/
inductive Refusal where
  /-- An instruction without a meaning yet, by its mnemonic. Raised by an arm of `exec` that stands for an instruction not
  yet modelled, and by no arm now: all 19 have their meaning. Safe: the model stops where the hardware goes on. -/
  | notModelled (mnemonic : String)
  deriving DecidableEq, Repr

end Sys2Proof.Machine
end

