-- ==== Sys2Proof/Machine/Ops.lean ====
section
/-! DEFINITION. The named operations over registers, memory, output and the run state; entering a fault, as ONE shared
operation; step 5 of the run loop; and the shape every instruction's meaning has (handler, then advance or fault entry).
There is no return from a fault: only Reset leaves Halted (`60_exceptions.md` R101; `hostReset` in HostPort.lean). -/
namespace Sys2Proof.Machine

/-- `v mod 256` of any integer, negative ones wrapping upward (`00_scope.md` R6, `10_state.md` R12). -/
def narrow (v : Int) : Byte := BitVec.ofInt 8 v

/-- `x[i]` (`00_scope.md` R6). No register is hardwired (`10_state.md` R11). -/
def State.reg (s : State) (i : Fin Config.nreg) : Byte := s.regs[i]

/-- `x[i] <- v`: stores `v mod 256` (`10_state.md` R12). -/
def State.setReg (s : State) (i : Fin Config.nreg) (v : Int) : State := { s with regs := s.regs.set i (narrow v) }

/-- `fl <- v` (`10_state.md` R17). -/
def State.setFl (s : State) (v : Byte) : State := { s with fl := v }

/-- `run <- r` (`10_state.md` R18). -/
def State.setRun (s : State) (r : RunState) : State := { s with run := r }

/-- `pc <- t` (`00_scope.md` R6). -/
def State.setPc (s : State) (t : Nat) : State := { s with pc := t }

/-- `Emit(v)`: `out <- out ++ [v]`; the output accepts every value at once (`10_state.md` R21, R27). -/
def State.emit (s : State) (v : Byte) : State := { s with out := s.out ++ [v] }

/-- The byte at an address: the listed one, else the reset contents (`20_memory.md` R32). -/
def Memory.get (m : Memory) (a : Nat) : Byte :=
  match m with
  | [] => Config.memReset
  | (b, v) :: rest => if a = b then v else Memory.get rest a

/-- The memory with one byte changed, in canonical form: writing the reset contents removes the entry. -/
def Memory.set (m : Memory) (a : Nat) (v : Byte) : Memory :=
  match m with
  | [] => if v = Config.memReset then [] else [(a, v)]
  | (b, w) :: rest =>
    if a < b then (if v = Config.memReset then (b, w) :: rest else (a, v) :: (b, w) :: rest)
    else if a = b then (if v = Config.memReset then rest else (a, v) :: rest)
    else (b, w) :: Memory.set rest a v

/-- The memory of `s` with the byte at `a` changed, without a bounds check. -/
def State.setMem (s : State) (a : Nat) (v : Byte) : State := { s with mem := s.mem.set a v }

/-- `MemRead(a, 1)`: the checked read (`20_memory.md` R31, R32). -/
def memRead (a : Nat) (s : State) : Except Cause Byte :=
  if Config.memSize ≤ a then .error (.addressOutOfRange .mem a) else .ok (s.mem.get a)

/-- `MemWrite(a, 1, v)`: the checked write of `v mod 256` (`20_memory.md` R31, R32). -/
def memWrite (a : Nat) (v : Int) (s : State) : Except Cause State :=
  if Config.memSize ≤ a then .error (.addressOutOfRange .mem a) else .ok (s.setMem a (narrow v))

/-- The kind of a cause. -/
def Cause.kind : Cause → FaultKind
  | .addressOutOfRange _ _ => .addressOutOfRange
  | .unsupportedOperation _ => .unsupportedOperation
  | .divisionByZero => .divisionByZero
  | .stackUnderflow => .stackUnderflow
  | .stackOverflow => .stackOverflow

/-- The information a cause records (`60_exceptions.md` R91). -/
def Cause.info : Cause → FaultInfo
  | .addressOutOfRange space index => .address space index
  | .unsupportedOperation b => .opcode b
  | .divisionByZero | .stackUnderflow | .stackOverflow => .nothing

/-- The numeric codes (`60_exceptions.md` R91). DESIGN CHOICE, the spec's D15 (notes/assumptions/13.md), unsafe: the
numbers are labels and no rule depends on them. -/
def FaultKind.code : FaultKind → Nat
  | .addressOutOfRange => 1
  | .unsupportedOperation => 2
  | .divisionByZero => 3
  | .stackUnderflow => 4
  | .stackOverflow => 5

/-- Fault entry, `raise K(i)`, from the state at the start of the step (`60_exceptions.md` R99): the record is set, `run`
becomes Halted, and nothing else changes; `pc` is not advanced (`40_run_loop.md` R66). -/
def faultEntry (opcode : Option Byte) (c : Cause) (s : State) : State :=
  { s with
    run := .halted
    fault := some { kind := c.kind, code := c.kind.code, atPc := s.pc, opcode := opcode, info := c.info } }

/-- Step 5 of the run loop (`40_run_loop.md` R65): unless the opcode byte's sets-PC bit is 1, `pc` moves past the
instruction; the sum is not wrapped (`10_state.md` R15). -/
def advance (ir : Byte) (s : State) : State :=
  if (decodeByte ir).setsPc then s else s.setPc (s.pc + (decodeByte ir).operandCount + 1)

/-- Steps 4 and 5 for one instruction: the handler's state, advanced; or, where the handler raised, fault entry from the
state BEFORE the handler, so that a faulting instruction has changed nothing else (`60_exceptions.md` R100). -/
def complete (ir : Byte) (s : State) (handler : Except Cause State) : Host.Outcome State Fault Refusal :=
  match handler with
  | .ok s' => .next (advance ir s')
  | .error c => .next (faultEntry (some ir) c s)

end Sys2Proof.Machine
end

