-- ==== Sys2Proof/Machine/Operands.lean ====
section
/-! DEFINITION. The operand forms (`30_encoding.md` R51, R52) and the two frames that the ALU instructions share
(`43_alu_arithmetic.md` R75). -/
namespace Sys2Proof.Machine

/-- `RegIndex(o)`: the checked register operand; the byte is never masked (`30_encoding.md` R51).
DESIGN CHOICE, the spec's D7 (notes/assumptions/6.md), safe. -/
def regIndex (o : Byte) : Except Cause (Fin Config.nreg) :=
  if h : o.toNat < Config.nreg then .ok ⟨o.toNat, h⟩ else .error (.addressOutOfRange .reg o.toNat)

/-- The operand byte that names register `r`. -/
def regByte (r : Fin Config.nreg) : Byte := BitVec.ofNat 8 r.val

/-- The value of LDI's immediate byte, as it stands (`30_encoding.md` R52). -/
def immediate (o : Byte) : Int := o.toNat

/-- `ALU2(f, o1, o2)`: both indices checked, first before second; both operands read; the result to the first
(`43_alu_arithmetic.md` R75). -/
def alu2 (f : Byte → Byte → Except Cause Int) (o1 o2 : Byte) (s : State) : Except Cause State := do
  let a ← regIndex o1
  let b ← regIndex o2
  let r ← f (s.reg a) (s.reg b)
  return s.setReg a r

/-- `ALU1(g, o1)` (`43_alu_arithmetic.md` R75). -/
def alu1 (g : Byte → Int) (o1 : Byte) (s : State) : Except Cause State := do
  let a ← regIndex o1
  return s.setReg a (g (s.reg a))

end Sys2Proof.Machine
end

