-- ==== Sys2Proof/Machine/Arithmetic.lean ====
section
/-! DEFINITION. ADD, SUB, MUL, DIV, MOD, INC, DEC (`43_alu_arithmetic.md`): computed exactly on integers, stored modulo
256 by the register write. -/
namespace Sys2Proof.Machine

/-- ADD (`43_alu_arithmetic.md` R76). -/
def execAdd (a b : Byte) (s : State) : Host.Outcome State Fault Refusal :=
  complete (Config.opc .add) s (alu2 (fun va vb => .ok (va.toNat + vb.toNat)) a b s)

/-- SUB (`43_alu_arithmetic.md` R77). -/
def execSub (a b : Byte) (s : State) : Host.Outcome State Fault Refusal :=
  complete (Config.opc .sub) s (alu2 (fun va vb => .ok (va.toNat - vb.toNat)) a b s)

/-- MUL (`43_alu_arithmetic.md` R78). -/
def execMul (a b : Byte) (s : State) : Host.Outcome State Fault Refusal :=
  complete (Config.opc .mul) s (alu2 (fun va vb => .ok (va.toNat * vb.toNat)) a b s)

/-- DIV's function: the unsigned quotient without its fraction, or the fault (`43_alu_arithmetic.md` R79). -/
def quotient (va vb : Byte) : Except Cause Int :=
  if vb = 0 then .error .divisionByZero else .ok ((va.toNat / vb.toNat : Nat) : Int)

/-- MOD's function: the unsigned remainder, or the fault (`43_alu_arithmetic.md` R80). -/
def remainder (va vb : Byte) : Except Cause Int :=
  if vb = 0 then .error .divisionByZero else .ok ((va.toNat % vb.toNat : Nat) : Int)

/-- DIV (`43_alu_arithmetic.md` R79). -/
def execDiv (a b : Byte) (s : State) : Host.Outcome State Fault Refusal :=
  complete (Config.opc .div) s (alu2 quotient a b s)

/-- MOD (`43_alu_arithmetic.md` R80). -/
def execMod (a b : Byte) (s : State) : Host.Outcome State Fault Refusal :=
  complete (Config.opc .mod) s (alu2 remainder a b s)

/-- INC (`43_alu_arithmetic.md` R81). -/
def execInc (a : Byte) (s : State) : Host.Outcome State Fault Refusal :=
  complete (Config.opc .inc) s (alu1 (fun v => v.toNat + 1) a s)

/-- DEC (`43_alu_arithmetic.md` R82). -/
def execDec (a : Byte) (s : State) : Host.Outcome State Fault Refusal :=
  complete (Config.opc .dec) s (alu1 (fun v => v.toNat - 1) a s)

end Sys2Proof.Machine
end

