-- ==== Sys2Proof/Machine/Control.lean ====
section
/-! DEFINITION. The control instruction (`40_run_loop.md`). -/
namespace Sys2Proof.Machine

/-- HLT (`40_run_loop.md` R69): `run <- Halted`; `pc` still advances by 1.
DESIGN CHOICE, the spec's D14 (notes/assumptions/12.md), unsafe. -/
def execHlt (s : State) : Host.Outcome State Fault Refusal :=
  complete (Config.opc .hlt) s (.ok (s.setRun .halted))

end Sys2Proof.Machine
end

