-- ==== Sys2Proof/Machine/LoadPrint.lean ====
section
/-! DEFINITION. LDI and PRN (`41_load_print.md`). -/
namespace Sys2Proof.Machine

/-- LDI (`41_load_print.md` R70). -/
def execLdi (a imm : Byte) (s : State) : Host.Outcome State Fault Refusal :=
  complete (Config.opc .ldi) s do
    let r ← regIndex a
    return s.setReg r (immediate imm)

/-- PRN (`41_load_print.md` R71): the number is emitted; its decimal rendering is the console's (`10_state.md` R27). -/
def execPrn (a : Byte) (s : State) : Host.Outcome State Fault Refusal :=
  complete (Config.opc .prn) s do
    let r ← regIndex a
    return s.emit (s.reg r)

end Sys2Proof.Machine
end

