-- ==== Sys2Proof/Machine/Flags.lean ====
section
/-! DEFINITION. The one flag computation, CMP's (`10_state.md` R16, `44_alu_compare_logic_shift.md` R84). No other
instruction has a flag: there is no carry, overflow, zero or sign flag (`43_alu_arithmetic.md` R75). -/
namespace Sys2Proof.Machine

/-- The byte with bit `p` set where `c` holds. -/
def flagBit (p : Nat) (c : Bool) : Byte := if c then 1 <<< p else 0

/-- The whole of `fl` after comparing `va` with `vb`, unsigned: exactly one of E, G, L is 1, every other bit 0
(`44_alu_compare_logic_shift.md` R84). DESIGN CHOICE, the spec's D3 (notes/assumptions/2.md), unsafe. -/
def compareFlags (va vb : Byte) : Byte :=
  flagBit Config.flEBit (va.toNat == vb.toNat) ||| flagBit Config.flGBit (decide (vb.toNat < va.toNat)) |||
    flagBit Config.flLBit (decide (va.toNat < vb.toNat))

end Sys2Proof.Machine
end

