-- ==== Sys2Proof/Machine/Logic.lean ====
section
/-! DEFINITION. CMP, AND, OR, XOR, NOT, SHL, SHR (`44_alu_compare_logic_shift.md`). -/
namespace Sys2Proof.Machine

/-- CMP (`44_alu_compare_logic_shift.md` R84): writes the whole of `fl` and nothing else. -/
def execCmp (a b : Byte) (s : State) : Host.Outcome State Fault Refusal :=
  complete (Config.opc .cmp) s do
    let ra ← regIndex a
    let rb ← regIndex b
    return s.setFl (compareFlags (s.reg ra) (s.reg rb))

/-- AND (`44_alu_compare_logic_shift.md` R85). -/
def execAnd (a b : Byte) (s : State) : Host.Outcome State Fault Refusal :=
  complete (Config.opc .and) s (alu2 (fun va vb => .ok (va &&& vb).toNat) a b s)

/-- OR (`44_alu_compare_logic_shift.md` R86). -/
def execOr (a b : Byte) (s : State) : Host.Outcome State Fault Refusal :=
  complete (Config.opc .or) s (alu2 (fun va vb => .ok (va ||| vb).toNat) a b s)

/-- XOR (`44_alu_compare_logic_shift.md` R87). -/
def execXor (a b : Byte) (s : State) : Host.Outcome State Fault Refusal :=
  complete (Config.opc .xor) s (alu2 (fun va vb => .ok (va ^^^ vb).toNat) a b s)

/-- NOT (`44_alu_compare_logic_shift.md` R88). -/
def execNot (a : Byte) (s : State) : Host.Outcome State Fault Refusal :=
  complete (Config.opc .not) s (alu1 (fun v => (~~~v).toNat) a s)

/-- SHL (`44_alu_compare_logic_shift.md` R89): the count is the whole value of the second register.
DESIGN CHOICE, the spec's D12 (notes/assumptions/10.md), unsafe. -/
def execShl (a b : Byte) (s : State) : Host.Outcome State Fault Refusal :=
  complete (Config.opc .shl) s (alu2 (fun va vb => .ok ((va.toNat * 2 ^ vb.toNat : Nat) : Int)) a b s)

/-- SHR (`44_alu_compare_logic_shift.md` R90): logical, by the whole value of the second register.
DESIGN CHOICE, the spec's D12 and D13 (notes/assumptions/10.md, 11.md), unsafe. -/
def execShr (a b : Byte) (s : State) : Host.Outcome State Fault Refusal :=
  complete (Config.opc .shr) s (alu2 (fun va vb => .ok ((va.toNat / 2 ^ vb.toNat : Nat) : Int)) a b s)

end Sys2Proof.Machine
end

