-- ==== Sys2Proof/Machine/Stack.lean ====
section
/-! DEFINITION. PUSH and POP (`42_stack.md`): a full stack that grows down, register 7 its pointer. Effects happen in the
order the spec writes them, also when the operand is register 7. -/
namespace Sys2Proof.Machine

/-- The address PUSH stores to: register 7 after the decrement (`42_stack.md` R72). -/
def pushAddress (s : State) : Nat :=
  ((s.setReg Config.spReg ((s.reg Config.spReg).toNat - 1)).reg Config.spReg).toNat

/-- PUSH's handler (`42_stack.md` R72): check, decrement, then store `x[a]` read after the decrement.
DESIGN CHOICE, the spec's D10 and D11 (notes/assumptions/8.md, 9.md), unsafe. -/
def pushHandler (a : Byte) (s : State) : Except Cause State := do
  let r ← regIndex a
  if s.reg Config.spReg = 0 then throw .stackOverflow
  let s' := s.setReg Config.spReg ((s.reg Config.spReg).toNat - 1)
  memWrite (pushAddress s) (s'.reg r).toNat s'

/-- POP's handler (`42_stack.md` R73): check, load into `x[a]`, then increment `x[7]` as it stands after the load.
DESIGN CHOICE, the spec's D10 (notes/assumptions/8.md), unsafe. -/
def popHandler (a : Byte) (s : State) : Except Cause State := do
  let r ← regIndex a
  if Config.stackTop.toNat ≤ (s.reg Config.spReg).toNat then throw .stackUnderflow
  let v ← memRead (s.reg Config.spReg).toNat s
  let s' := s.setReg r v.toNat
  return s'.setReg Config.spReg ((s'.reg Config.spReg).toNat + 1)

/-- PUSH (`42_stack.md` R72). -/
def execPush (a : Byte) (s : State) : Host.Outcome State Fault Refusal :=
  complete (Config.opc .push) s (pushHandler a s)

/-- POP (`42_stack.md` R73). -/
def execPop (a : Byte) (s : State) : Host.Outcome State Fault Refusal :=
  complete (Config.opc .pop) s (popHandler a s)

end Sys2Proof.Machine
end

