-- ==== Sys2Proof/Machine/Fetch.lean ====
section
/-! DEFINITION. Steps 1 to 3 of the run loop and the choice of the handler, over the machine's memory
(`40_run_loop.md` R61 to R64), and the placing of an instruction where the next step fetches. -/
namespace Sys2Proof.Machine

/-- The byte of the instruction stream `k` places after `pc`; the address is not reduced modulo 256
(`20_memory.md` R33). -/
def codeRead (s : State) (k : Nat) : Except Cause Byte := memRead (s.pc + k) s

/-- The instruction at `pc`, or the opcode (where it was fetched) and the cause that the step raises, in the order of
`60_exceptions.md` R98 items 1 to 4. -/
def fetchInstr (s : State) : Except (Option Byte × Cause) Instr :=
  match decodeFrom (codeRead s) with
  | .ok i => .ok i
  | .error (.noOpcode c) => .error (none, c)
  | .error (.noOperand ir c) => .error (some ir, c)
  | .error (.unsupported ir) => .error (some ir, .unsupportedOperation ir)

/-- `s` with bytes stored at consecutive addresses from `a`; a byte whose address is outside memory is left out. -/
def State.placeBytes (s : State) (a : Nat) : List Byte → State
  | [] => s
  | b :: bs => (if a < Config.memSize then s.setMem a b else s).placeBytes (a + 1) bs

end Sys2Proof.Machine
end

