-- ==== Sys2Proof/Machine/Step.lean ====
section
/-! DEFINITION. One step of the core (`40_run_loop.md` R67), and the placing of an instruction for the next step. -/
namespace Sys2Proof.Machine

/-- `Step()` (`40_run_loop.md` R67): nothing at all while Halted (R60); else the instruction at `pc` is fetched and
executed, or what the fetch or the dispatch raised is entered. -/
def step (s : State) : Host.Outcome State Fault Refusal :=
  match s.run with
  | .halted => .next s
  | .running =>
    match fetchInstr s with
    | .ok i => exec i s
    | .error (opcode, c) => .next (faultEntry opcode c s)

/-- `s` with an instruction of the opcode table stored where the next step fetches, and Running, so that it does. It
stands for the host's Load and Start (`10_state.md` R26; notes/assumptions/15.md). -/
def State.withFetchWord (s : State) (nbits w : Nat) : State :=
  (s.placeBytes s.pc (tableBytes nbits w)).setRun .running

end Sys2Proof.Machine
end

