-- ==== Sys2Proof/Machine/HostPort.lean ====
section
/-! DEFINITION. What the host does to the core and reads of it (`10_state.md` R25 to R29, `70_reset_and_hazards.md` R111).
None of these is a step. Their callers' duties (Load once, after Reset and before Start) are the host's
(notes/assumptions/14.md). -/
namespace Sys2Proof.Machine

/-- Reset: every piece of state to its reset value, whatever it was (`10_state.md` R25). -/
def hostReset (_ : State) : State := State.reset

/-- Load: `mem[a] <- b` for each pair in order, a later pair overwriting an earlier one (`10_state.md` R26). The host's
duty to keep addresses in range is the pair's type. -/
def hostLoad (image : List (Fin Config.memSize × Byte)) (s : State) : State :=
  image.foldl (fun t p => t.setMem p.1.val p.2) s

/-- Start: `run <- Running` and nothing else (`10_state.md` R26). -/
def hostStart (s : State) : State := s.setRun .running

/-- Reset, Load, Start: the state in which a run begins (`70_reset_and_hazards.md` R109). -/
def launch (image : List (Fin Config.memSize × Byte)) : State := hostStart (hostLoad image State.reset)

/-- The trace snapshot `(pc, m0, m1, m2, x[0..7])`; a byte that would lie at 256 or above is absent (`10_state.md` R28). -/
structure Snapshot where
  pc : Nat
  m0 : Option Byte
  m1 : Option Byte
  m2 : Option Byte
  regs : Vector Byte Config.nreg
  deriving DecidableEq, Repr

/-- One memory byte of the snapshot. -/
def snapshotByte (s : State) (a : Nat) : Option Byte := if a < Config.memSize then some (s.mem.get a) else none

/-- Taking the snapshot: read-only, never faults (`10_state.md` R28). DESIGN CHOICE, the spec's D22
(notes/assumptions/18.md), safe. -/
def hostSnapshot (s : State) : Snapshot where
  pc := s.pc
  m0 := snapshotByte s s.pc
  m1 := snapshotByte s (s.pc + 1)
  m2 := snapshotByte s (s.pc + 2)
  regs := s.regs

/-- What the host reads at any time: `run`, `fault` and the output (`10_state.md` R29, `70_reset_and_hazards.md` R111). -/
def hostStatus (s : State) : RunState × Option FaultRecord × List Byte := (s.run, s.fault, s.out)

/-- What the host may inspect of registers, `pc`, `fl` and memory: their values, while Halted only (`10_state.md` R29). -/
def hostInspect (s : State) : Option (Vector Byte Config.nreg × Nat × Byte × Memory) :=
  match s.run with
  | .halted => some (s.regs, s.pc, s.fl, s.mem)
  | .running => none

end Sys2Proof.Machine
end

