-- ==== Sys2Proof/Safety.lean ====
section
/-! DEFINITION. The terms that statements are made in: what a fault leaves, when an instruction completes, what only one
register's write changes, the machine's invariant, the end of a run. -/
namespace Sys2Proof.Machine

/-- `t` is `s` after a fault of this kind: the record set, Halted, nothing else (`60_exceptions.md` R99). The numeric code
is left open here (a label: notes/assumptions/13.md). -/
def FaultsWith (s t : State) (opcode : Option Byte) (kind : FaultKind) (info : FaultInfo) : Prop :=
  ∃ code : Nat, t = { s with run := .halted, fault := some ⟨kind, code, s.pc, opcode, info⟩ }

/-- `t` is `s` with register `a` changed, to whatever `t` holds there, and `pc` moved on by `len`; nothing else. -/
def WritesOnly (s t : State) (a : Fin 8) (len : Nat) : Prop :=
  t = { s with regs := s.regs.set a (t.reg a), pc := s.pc + len }

/-- An instruction with a register operand of 8 or more faults with that operand, in every state
(`60_exceptions.md` R93). Which of two such operands is reported is not said here. -/
def BadRegisterFaults (i : Instr) : Prop :=
  ∀ s : State, ¬ WellFormed i →
    ∃ t o, o ∈ i.regOperands ∧ 8 ≤ o.toNat ∧ exec i s = .next t ∧
      FaultsWith s t (some i.opcode) .addressOutOfRange (.address .reg o.toNat)

/-- The instruction's own check passes: a divisor that is not 0 for DIV and MOD, room for PUSH, a pushed byte for POP
(`60_exceptions.md` R95, R96, R97). -/
def OwnCheckPasses : Instr → State → Prop
  | .push _, s => s.reg 7 ≠ 0
  | .pop _, s => (s.reg 7).toNat < 0xF4
  | .div _ b, s | .mod _ b, s => ∀ r : Fin 8, r.val = b.toNat → s.reg r ≠ 0
  | _, _ => True

/-- The conditions under which the spec has the instruction complete without a fault. -/
def Completes (i : Instr) (s : State) : Prop := WellFormed i ∧ OwnCheckPasses i s

/-- A cause that some step of a machine in its invariant can raise: a memory address of 256 (`60_exceptions.md` R92), a
register index of 8 to 255 (R93), a byte with no handler (R94). -/
def LegalCause : Cause → Prop
  | .addressOutOfRange .mem a => a = 256
  | .addressOutOfRange .reg n => 8 ≤ n ∧ n ≤ 255
  | .unsupportedOperation b => Mnemonic.ofByte? b = none
  | .divisionByZero | .stackUnderflow | .stackOverflow => True

/-- The opcode bytes under which a kind is raised by the handler itself (`60_exceptions.md` R91). -/
def RaisedUnder (kind : FaultKind) (opcode : Option Byte) : Prop :=
  match kind with
  | .addressOutOfRange | .unsupportedOperation => True
  | .divisionByZero => opcode = some (Config.opc .div) ∨ opcode = some (Config.opc .mod)
  | .stackUnderflow => opcode = some (Config.opc .pop)
  | .stackOverflow => opcode = some (Config.opc .push)

/-- A record that agrees with itself and with the halted machine that holds it: its kind, code and information are those of
one legal cause, and it names the `pc` and the opcode byte of the instruction that faulted (`10_state.md` R19,
`60_exceptions.md` R99, R100). -/
structure LegalRecord (r : FaultRecord) (s : State) : Prop where
  cause : ∃ c, LegalCause c ∧ r.kind = c.kind ∧ r.code = c.kind.code ∧ r.info = c.info
  atPc : r.atPc = s.pc
  opcode : r.opcode = if s.pc < 256 then some (s.mem.get s.pc) else none
  raiser : RaisedUnder r.kind r.opcode

/-- The machine's invariant: `pc` in [0, 256] (`10_state.md` R15); memory in its canonical form; `fl` one of the four
values of R16; a fault only in a Halted machine (R18, R19), with a legal record. -/
structure State.Inv (s : State) : Prop where
  pc_le : s.pc ≤ 256
  mem_wf : s.mem.wf
  fl_legal : s.fl = 0 ∨ s.fl = 1 ∨ s.fl = 2 ∨ s.fl = 4
  fault_halts : s.fault ≠ none → s.run = .halted
  record_legal : ∀ r, s.fault = some r → LegalRecord r s

/-- The stack pointer lies within the stack's range (`42_stack.md` R74, point 1). -/
def StackInRange (s : State) : Prop := (s.reg 7).toNat ≤ 0xF4

/-- The instruction names register 7 as its destination: the writers of SP other than PUSH and POP themselves, and
POP R7 (`42_stack.md` R74, point 1). -/
def NamesSpAsDest (i : Instr) : Prop := i.dest? = some 7

/-- The memory bytes from `pc` on that exist, at most three: what the next step can fetch. -/
def codeBytes (s : State) : List Byte :=
  (([s.pc, s.pc + 1, s.pc + 2].filter fun a => decide (a < 256)).map fun a => s.mem.get a)

end Sys2Proof.Machine
end

