-- ==== Sys2Proof/Certificates/Slice0/Obligations.lean ====
section
/-! DEFINITION. The statements for the provers. Each docstring says which rule of spec/ it formalises; where it rests on one
of the spec's own decisions D<n>, the docstring names the decision and the entry of notes/assumptions/. -/

open Sys2Proof Sys2Proof.Machine

/-! ## Reset, launch, the run -/

/-- `10_state.md` section 8, `70_reset_and_hazards.md` section 1: what reset leaves in every field. `pc` and `fl` are the
spec's decision D4 (notes/assumptions/3.md), the empty fault record its D15 (notes/assumptions/13.md). -/
def Obligations.ResetLeavesEveryField : Prop :=
  (∀ r : Fin 8, State.reset.reg r = if r = 7 then 0xF4 else 0) ∧ State.reset.pc = 0 ∧ State.reset.fl = 0 ∧
    State.reset.run = .halted ∧ State.reset.fault = none ∧ State.reset.out = [] ∧
    ∀ a : Nat, State.reset.mem.get a = 0

/-- The invariant holds right after reset. -/
def Obligations.ResetMeetsInvariant : Prop := State.reset.Inv

/-- Every step keeps the invariant, from every state that meets it: `pc` in [0, 256], `fl` one of four bytes, memory
canonical, a fault only when Halted and with a record that names the cause, the `pc` and the opcode byte. It rests on the
spec's decisions D3, D5, D9 and D15 (notes/assumptions/2.md, 4.md, 7.md, 13.md). -/
def Obligations.StepKeepsInvariant : Prop := ∀ s t : State, s.Inv → step s = .next t → t.Inv

/-- `93_implementation_defined.md`, end of Part 1: nothing is stuck; every step completes or takes a fault, and either way
there is a next state. -/
def Obligations.StepAlwaysAnswersAState : Prop := ∀ s : State, ∃ t, step s = .next t

/-- R60: while Halted a step changes nothing at all. -/
def Obligations.HaltedStepChangesNothing : Prop := ∀ s : State, s.run = .halted → step s = .next s

/-- `40_run_loop.md` R68, the spec's own inference: every run ends, within 129 steps, from every state whatever. It rests on
the spec's D5 (`pc` does not wrap: notes/assumptions/4.md). -/
def Obligations.RunHaltsWithin129Steps : Prop :=
  ∀ s : State, ∃ t : State, Host.Core.run Sys2Proof.core 129 s = .next t ∧ t.run = .halted

/-- What R68 rests on: an instruction that leaves the core Running has moved `pc` up by 2 or more, to 256 at most (no wrap:
the spec's D5, notes/assumptions/4.md); HLT moves it by 1 (D14, notes/assumptions/12.md); any other step that halts the core is
a fault and leaves `pc` as it was (D9, notes/assumptions/7.md). -/
def Obligations.PcMovesForwardOnly : Prop :=
  ∀ s t : State, s.run = .running → step s = .next t →
    (t.run = .running → s.pc + 2 ≤ t.pc ∧ t.pc ≤ 256) ∧
    (s.pc < 256 → s.mem.get s.pc = Config.opc .hlt → t.run = .halted ∧ t.pc = s.pc + 1) ∧
    (t.run = .halted → ¬ (s.pc < 256 ∧ s.mem.get s.pc = Config.opc .hlt) → t.fault ≠ none ∧ t.pc = s.pc)

/-- `10_state.md` R26 and `70_reset_and_hazards.md` R109 (the spec's D16, notes/assumptions/14.md): after Reset, Load and
Start the core is Running, each cell holds the last byte loaded there or 0, and all else is as reset left it. -/
def Obligations.LaunchLoadsAndStarts : Prop :=
  ∀ image : List (Fin 256 × Byte),
    launch image = { State.reset with run := .running, mem := (launch image).mem } ∧
    ∀ a : Fin 256, (launch image).mem.get a.val =
      match image.reverse.find? (fun p => decide (p.1 = a)) with
      | some p => p.2
      | none => 0

/-- `10_state.md` R28 (the spec's D22, notes/assumptions/18.md): the snapshot's fields, a byte at 256 or above absent. -/
def Obligations.SnapshotShowsThreeBytes : Prop :=
  ∀ s : State, (hostSnapshot s).pc = s.pc ∧ (hostSnapshot s).regs = s.regs ∧
    (hostSnapshot s).m0 = (if s.pc < 256 then some (s.mem.get s.pc) else none) ∧
    (hostSnapshot s).m1 = (if s.pc + 1 < 256 then some (s.mem.get (s.pc + 1)) else none) ∧
    (hostSnapshot s).m2 = (if s.pc + 2 < 256 then some (s.mem.get (s.pc + 2)) else none)

/-! ## Memory -/

/-- R32: the two memory primitives in and out of range, what a write changes, and what is read where nothing was written. -/
def Obligations.MemoryPrimitivesCheckAndStore : Prop :=
  ∀ (s : State) (a : Nat) (v : Int),
    (256 ≤ a → memRead a s = .error (.addressOutOfRange .mem a) ∧ memWrite a v s = .error (.addressOutOfRange .mem a)) ∧
    (a < 256 → memRead a s = .ok (s.mem.get a) ∧ memRead a State.reset = .ok 0) ∧
    (a < 256 → s.mem.wf → ∃ t, memWrite a v s = .ok t ∧ t = { s with mem := t.mem } ∧
      (∃ b, memRead a t = .ok b ∧ (b.toNat : Int) = v % 256) ∧
      ∀ c : Nat, c ≠ a → memRead c t = memRead c s)

/-! ## Encoding and decoding -/

/-- Decoding the bytes of any instruction, whatever follows them, gives the instruction back: every operand byte at every
value, register operands of 8 and more among them. -/
def Obligations.DecodeOfEncode : Prop := ∀ (i : Instr) (rest : List Byte), decode (encode i ++ rest) = .ok i

/-- Whatever decodes to an instruction begins with exactly its bytes. -/
def Obligations.EncodeOfDecode : Prop :=
  ∀ (bytes : List Byte) (i : Instr), decode bytes = .ok i → ∃ rest, bytes = encode i ++ rest

/-- R46 and R47: the fields of the opcode byte, for all 256 bytes. -/
def Obligations.OpcodeFieldsAreBitRanges : Prop :=
  ∀ b : Byte, (decodeByte b).operandCount = b.toNat / 64 ∧ (decodeByte b).isAluOp = decide (b.toNat / 32 % 2 = 1) ∧
    (decodeByte b).setsPc = decide (b.toNat / 16 % 2 = 1) ∧ (decodeByte b).opId.toNat = b.toNat % 16

/-- What the source fixes of the opcode map (`30_encoding.md` sections 2 and 4): its three bytes, one byte for each
mnemonic, bits 7-6 the operand count, bit 5 the ALU class. The other bytes are the spec's defaults (D1,
notes/assumptions/1.md). -/
def Obligations.OpcodeMapMeetsSource : Prop :=
  Config.opc .ldi = 0b10000010 ∧ Config.opc .prn = 0b01000111 ∧ Config.opc .hlt = 0b00000001 ∧
    (∀ m n : Mnemonic, Config.opc m = Config.opc n → m = n) ∧
    ∀ i : Instr, (decodeByte i.opcode).operandCount = i.operands.length ∧
      ((decodeByte i.opcode).isAluOp = false ↔ i.mnemonic ∈ [Mnemonic.hlt, .ldi, .prn, .push, .pop])

/-- Words written out from the opcode map, one or more for each family; the 16 bytes not in the source are the spec's
defaults (D1, notes/assumptions/1.md). -/
def Obligations.SpecWordsDecode : Prop :=
  decode [0x01] = .ok .hlt ∧ decode [0x82, 0x00, 0x08] = .ok (.ldi 0 8) ∧ decode [0x47, 0x00] = .ok (.prn 0) ∧
    decode [0x45, 0x07] = .ok (.push 7) ∧ decode [0x46, 0x02] = .ok (.pop 2) ∧
    decode [0xA0, 0x00, 0x01] = .ok (.add 0 1) ∧ decode [0x65, 0x03] = .ok (.inc 3) ∧
    decode [0xA7, 0x00, 0x02] = .ok (.cmp 0 2) ∧ decode [0xAC, 0x02, 0x01] = .ok (.shl 2 1) ∧
    decode [0x82, 0xFF, 0x01] = .ok (.ldi 255 1) ∧ decode [0x54, 0x00] = .error (.unsupported 0x54)

/-- R50: no instruction's byte has the sets-PC bit, and every byte with it, followed by the bytes that its bits 7-6 call for,
is unsupported. -/
def Obligations.SetsPcBytesAreUnsupported : Prop :=
  (∀ m : Mnemonic, (decodeByte (Config.opc m)).setsPc = false) ∧
    ∀ b : Byte, (decodeByte b).setsPc = true →
      ∀ rest : List Byte, (decodeByte b).operandCount ≤ rest.length → decode (b :: rest) = .error (.unsupported b)

/-- `30_encoding.md` section 5: 237 bytes are unsupported, 0x00 among them, and every byte with operand count 3 (D6,
notes/assumptions/5.md). Which 19 are supported is the spec's default map (D1, notes/assumptions/1.md). -/
def Obligations.UnsupportedBytesCount : Prop :=
  ((List.range 256).filter fun n => (Mnemonic.ofByte? (BitVec.ofNat 8 n)).isNone).length = 237 ∧
    Mnemonic.ofByte? 0 = none ∧ ∀ b : Byte, (decodeByte b).operandCount = 3 → Mnemonic.ofByte? b = none

/-! ## The step and its faults -/

/-- `40_run_loop.md` R67: when the bytes at `pc` decode to an instruction, a Running core's step is the execution of that
instruction, and nothing around it (the advance of `pc` is part of `exec`). -/
def Obligations.StepRunsDecodedInstruction : Prop :=
  ∀ (s : State) (i : Instr), s.run = .running → decode (codeBytes s) = .ok i → step s = exec i s

/-- `40_run_loop.md` R61: the opcode fetch reads the byte at `pc`; with `pc` outside memory it faults with that address and no
opcode. That such a `pc` is 256, under the invariant, is the spec's D5 (notes/assumptions/4.md). -/
def Obligations.OpcodeFetchFaultsPastMemory : Prop :=
  (∀ s : State, s.pc < 256 → codeRead s 0 = .ok (s.mem.get s.pc)) ∧
  (∀ s : State, s.run = .running → 256 ≤ s.pc →
    ∃ t, step s = .next t ∧ FaultsWith s t none .addressOutOfRange (.address .mem s.pc)) ∧
  ∀ s : State, s.Inv → 256 ≤ s.pc → s.pc = 256

/-- `60_exceptions.md` R92: a step raises AddressOutOfRange in the memory space in three places only, always with address 256.
That a byte of operand count 3 at address 253 raises none is the spec's D6 (notes/assumptions/5.md); that `pc` is 256 at most,
the invariant's, is D5 (notes/assumptions/4.md). -/
def Obligations.MemoryFaultsAriseInThreePlaces : Prop :=
  ∀ (s t : State) (a : Nat), s.Inv → s.run = .running → step s = .next t →
    ((∃ r, t.fault = some r ∧ r.kind = .addressOutOfRange ∧ r.info = .address .mem a) ↔
      a = 256 ∧ (s.pc = 256 ∨ (s.pc = 255 ∧ (decodeByte (s.mem.get s.pc)).operandCount ≠ 0) ∨
        (s.pc = 254 ∧ 2 ≤ (decodeByte (s.mem.get s.pc)).operandCount)))

/-- R94: a byte that is no instruction's, with all the operand bytes that its bits 7-6 call for in memory, faults with
UnsupportedOperation naming the byte; and that fault is raised for such a byte only, its operand bytes having been fetched.
(The bytes of operand count 3 at the top of memory are CountThreeFetchesTwoBytes.) -/
def Obligations.UnsupportedOpcodeFaults : Prop :=
  (∀ (s : State) (b : Byte), s.run = .running → s.pc < 256 → s.mem.get s.pc = b → (∀ m, Config.opc m ≠ b) →
    s.pc + b.toNat / 64 < 256 →
    ∃ t, step s = .next t ∧ FaultsWith s t (some b) .unsupportedOperation (.opcode b)) ∧
  ∀ (s t : State) (r : FaultRecord), s.fault = none → step s = .next t → t.fault = some r →
    r.kind = .unsupportedOperation →
    s.pc < 256 ∧ (∀ m, Config.opc m ≠ s.mem.get s.pc) ∧ r.info = .opcode (s.mem.get s.pc) ∧
      ((s.mem.get s.pc).toNat < 0xC0 → s.pc + (s.mem.get s.pc).toNat / 64 < 256)

/-- `30_encoding.md` R48 and `40_run_loop.md` R63, the spec's D6 (notes/assumptions/5.md): a byte of operand count 3 has two
operand bytes fetched; up to address 253 it faults as unsupported, above it as out of range; and a list that begins with it
is rejected as unsupported as soon as it has two bytes more. -/
def Obligations.CountThreeFetchesTwoBytes : Prop :=
  (∀ s : State, s.run = .running → s.pc < 256 → 0xC0 ≤ (s.mem.get s.pc).toNat →
    ∃ t, step s = .next t ∧
      if s.pc ≤ 253 then FaultsWith s t (some (s.mem.get s.pc)) .unsupportedOperation (.opcode (s.mem.get s.pc))
      else FaultsWith s t (some (s.mem.get s.pc)) .addressOutOfRange (.address .mem 256)) ∧
  ∀ (b o1 o2 : Byte) (rest : List Byte), 0xC0 ≤ b.toNat → decode (b :: o1 :: o2 :: rest) = .error (.unsupported b)

/-- `60_exceptions.md` R99 (`pc` kept: the spec's D9, notes/assumptions/7.md; the record and its code: D15,
notes/assumptions/13.md): what entering a fault changes: the record and `run`; every register, `pc`, `fl`, memory and
`out` are as they were at the start of the step; the record names the `pc` and the opcode byte where it was fetched. -/
def Obligations.FaultEntryChangesNothingElse : Prop :=
  ∀ s t : State, s.fault = none → step s = .next t → t.fault ≠ none →
    ∃ r, t = { s with run := .halted, fault := some r } ∧ r.code = r.kind.code ∧ r.atPc = s.pc ∧
      r.opcode = if s.pc < 256 then some (s.mem.get s.pc) else none

/-- `60_exceptions.md` section 1 (the spec's D15, notes/assumptions/13.md): the codes 1 to 5 and the information. -/
def Obligations.FaultCodesFollowTheTable : Prop :=
  ∀ (o : Option Byte) (s : State) (n : Nat) (sp : Space) (b : Byte),
    (faultEntry o (.addressOutOfRange sp n) s).fault = some ⟨.addressOutOfRange, 1, s.pc, o, .address sp n⟩ ∧
    (faultEntry o (.unsupportedOperation b) s).fault = some ⟨.unsupportedOperation, 2, s.pc, o, .opcode b⟩ ∧
    (faultEntry o .divisionByZero s).fault = some ⟨.divisionByZero, 3, s.pc, o, .nothing⟩ ∧
    (faultEntry o .stackUnderflow s).fault = some ⟨.stackUnderflow, 4, s.pc, o, .nothing⟩ ∧
    (faultEntry o .stackOverflow s).fault = some ⟨.stackOverflow, 5, s.pc, o, .nothing⟩

/-- R9: a Running core with no fault is Halted by a step in exactly two ways, a fault, which sets the record, or HLT, which
leaves it empty; and nothing leaves Halted, however many steps are taken. -/
def Obligations.RunEndsByHltOrFault : Prop :=
  (∀ s t : State, s.run = .running → s.fault = none → step s = .next t →
    (t.run = .halted ↔ t.fault ≠ none ∨ (s.pc < 256 ∧ s.mem.get s.pc = Config.opc .hlt)) ∧
    (s.pc < 256 → s.mem.get s.pc = Config.opc .hlt → t.fault = none)) ∧
  ∀ (s : State) (n : Nat), s.run = .halted → Host.Core.run Sys2Proof.core n s = .next s

/-- `60_exceptions.md` R93, R98 items 5 to 7 (the spec's D7 and D8, notes/assumptions/6.md, 7.md): the first register
operand of 8 or more is the fault reported, before the second and before the instruction's own check. -/
def Obligations.BadRegisterOperandFaultsFirst : Prop :=
  ∀ (i : Instr) (s : State) (o : Byte), i.regOperands.find? (fun o => decide (8 ≤ o.toNat)) = some o →
    ∃ t, exec i s = .next t ∧ FaultsWith s t (some i.opcode) .addressOutOfRange (.address .reg o.toNat)

/-! ## Whole-machine rules -/

/-- Every one of the 19 instructions completes where its operands name registers and its own check passes: no fault, `pc`
past its last byte, Running as before but for HLT. It rests on the spec's D14 (HLT's `pc`: notes/assumptions/12.md) and D11
(PUSH with register 7 above 0xF4: notes/assumptions/9.md). -/
def Obligations.EveryInstructionCompletes : Prop :=
  ∀ (i : Instr) (s : State), Completes i s →
    ∃ t, exec i s = .next t ∧ t.fault = s.fault ∧ t.pc = s.pc + (encode i).length ∧
      t.run = if i = .hlt then .halted else s.run

/-- An instruction faults exactly where it does not complete, and then `pc` keeps its address (`40_run_loop.md` R65, R66). It
rests on the spec's D7 (a register operand of 8 or more faults: notes/assumptions/6.md), D9 (`pc` after a fault:
notes/assumptions/7.md), D11 (PUSH with register 7 above 0xF4 completes: notes/assumptions/9.md), D14 (HLT advances `pc`:
notes/assumptions/12.md) and D24 (the advance: notes/assumptions/17.md). -/
def Obligations.FaultsExactlyWhereIncomplete : Prop :=
  ∀ (i : Instr) (s t : State), s.fault = none → exec i s = .next t →
    (Completes i s ∧ t.fault = none ∧ t.pc = s.pc + (encode i).length) ∨
      (¬ Completes i s ∧ t.fault ≠ none ∧ t.pc = s.pc)

/-- `10_state.md` R17: no instruction but CMP writes `fl`, and none reads it: with any other byte in `fl` the same happens. That
CMP leaves the same state whatever `fl` held is the spec's D3 (it writes every bit: notes/assumptions/2.md). -/
def Obligations.FlagsWrittenByCmpOnlyAndUnread : Prop :=
  (∀ (i : Instr) (s t : State), (∀ a b, i ≠ .cmp a b) → exec i s = .next t →
    t.fl = s.fl ∧ ∀ f : Byte, exec i { s with fl := f } = .next { t with fl := f }) ∧
  ∀ (a b : Fin 8) (s : State) (f : Byte),
    exec (.cmp (regByte a) (regByte b)) { s with fl := f } = exec (.cmp (regByte a) (regByte b)) s

/-- `10_state.md` R21: PRN of a register appends that register's value after the older ones (the output never refuses: the
spec's D17, notes/assumptions/19.md); every other instruction, PRN with an operand of 8 or more among them (a fault: D7,
notes/assumptions/6.md), appends nothing; and no instruction reads `out`: with any other contents the same happens. -/
def Obligations.OutputWrittenByPrnOnlyAndUnread : Prop :=
  State.reset.out = [] ∧
  ∀ (i : Instr) (s t : State), exec i s = .next t →
    ∃ d, t.out = s.out ++ d ∧
      ((∃ a : Fin 8, i = .prn (regByte a) ∧ d = [s.reg a]) ∨ ((∀ a : Fin 8, i ≠ .prn (regByte a)) ∧ d = [])) ∧
      ∀ o : List Byte, exec i { s with out := o } = .next { t with out := o ++ d }

/-- `20_memory.md` section 1, the table of accesses: PUSH writes one byte, at the address its meaning computes; no other
instruction writes memory; no handler but POP's and PUSH's depends on it. -/
def Obligations.MemoryTouchedByStackOnly : Prop :=
  ∀ (i : Instr) (s t : State), exec i s = .next t →
    (∀ a : Nat, ((∃ r, i = .push r) → a ≠ pushAddress s) → t.mem.get a = s.mem.get a) ∧
    ((∀ r, i ≠ .push r) → t.mem = s.mem) ∧
    ((∀ r, i ≠ .push r) → (∀ r, i ≠ .pop r) → ∀ m : Memory, exec i { s with mem := m } = .next { t with mem := m })

/-- `10_state.md` section 1: an instruction writes no register but the one its destination operand names, and, PUSH and
POP, register 7. An operand byte of 8 or more names no register (the spec's D7, notes/assumptions/6.md). -/
def Obligations.RegistersWrittenByDestinationOnly : Prop :=
  ∀ (i : Instr) (s t : State) (r : Fin 8), exec i s = .next t → i.dest? ≠ some (regByte r) →
    (r = 7 → (∀ o, i ≠ .push o) ∧ ∀ o, i ≠ .pop o) → t.reg r = s.reg r

/-- `10_state.md` R13: registers 5 and 6 are inert. A step does not write one of them unless the instruction names it as its
destination (ADD R0 R5, PRN R5, PUSH R5 do not); and where the instruction does not name it at all it is not read: whatever it
holds the step is the same. An operand byte of 8 or more names no register (the spec's D7, notes/assumptions/6.md). -/
def Obligations.ImAndIsAreInert : Prop :=
  ∀ (s t : State) (r : Fin 8), r = 5 ∨ r = 6 → step s = .next t →
    ((∀ i, fetchInstr s = .ok i → i.dest? ≠ some (regByte r)) → t.reg r = s.reg r) ∧
    ((∀ i, fetchInstr s = .ok i → regByte r ∉ i.regOperands) → ∀ v : Byte,
      step { s with regs := s.regs.set r v } = .next { t with regs := t.regs.set r v })

/-! ## Each instruction

The clause BadRegisterFaults, an operand byte of 8 or more, rests on the spec's decision D7 (notes/assumptions/6.md) in
every one of them; that values are unsigned, in DIV, MOD, CMP and SHR, on D13 (notes/assumptions/11.md); that a faulting
instruction leaves `pc` on D9 (notes/assumptions/7.md); the byte of 16 of the mnemonics, where it stands in a fault
record, on D1 (notes/assumptions/1.md). Where a rule is named here, these points of it are the spec's own choices and the
rest is the source's. -/

/-- `40_run_loop.md` R69: HLT halts; `pc` advances by 1 (the spec's D14, notes/assumptions/12.md); nothing else changes. -/
def Obligations.HltHalts : Prop := ∀ s : State, exec .hlt s = .next { s with run := .halted, pc := s.pc + 1 }

/-- `41_load_print.md` R70 (with D7, notes/assumptions/6.md): LDI: its bytes, its effect, its faults in the register and
in the operand fetch. -/
def Obligations.LdiLoadsImmediate : Prop :=
  (∀ o v : Byte, encode (.ldi o v) = [0x82, o, v]) ∧
  (∀ (s : State) (a : Fin 8) (v : Byte), ∃ t, exec (.ldi (regByte a) v) s = .next t ∧ t.reg a = v ∧ WritesOnly s t a 3) ∧
  (∀ o v : Byte, BadRegisterFaults (.ldi o v)) ∧
  ∀ s : State, s.run = .running → s.mem.get s.pc = 0x82 → s.pc = 254 ∨ s.pc = 255 →
    ∃ t, step s = .next t ∧ FaultsWith s t (some 0x82) .addressOutOfRange (.address .mem 256)

/-- `41_load_print.md` R71 (with D7, notes/assumptions/6.md): PRN: its bytes, its effect, its faults in the register and
in the operand fetch. -/
def Obligations.PrnEmitsRegister : Prop :=
  (∀ o : Byte, encode (.prn o) = [0x47, o]) ∧
  (∀ (s : State) (a : Fin 8), exec (.prn (regByte a)) s = .next { s with out := s.out ++ [s.reg a], pc := s.pc + 2 }) ∧
  (∀ o : Byte, BadRegisterFaults (.prn o)) ∧
  ∀ s : State, s.run = .running → s.mem.get s.pc = 0x47 → s.pc = 255 →
    ∃ t, step s = .next t ∧ FaultsWith s t (some 0x47) .addressOutOfRange (.address .mem 256)

/-- `42_stack.md` R72: PUSH with room. The address is the one the meaning computes, one below register 7. PUSH R7 stores
the decremented pointer (the spec's D10, notes/assumptions/8.md); a pointer above 0xF4 is no obstacle (D11,
notes/assumptions/9.md). The premise on memory is the invariant's. -/
def Obligations.PushStoresBelowStackPointer : Prop :=
  (∀ (s : State) (a : Fin 8), s.mem.wf → s.reg 7 ≠ 0 → ∃ t, exec (.push (regByte a)) s = .next t ∧
    pushAddress s = (s.reg 7).toNat - 1 ∧ t.reg 7 = s.reg 7 - 1 ∧ (∀ r : Fin 8, r ≠ 7 → t.reg r = s.reg r) ∧
    t.mem.get (pushAddress s) = (if a = 7 then s.reg 7 - 1 else s.reg a) ∧
    (∀ b : Nat, b ≠ pushAddress s → t.mem.get b = s.mem.get b) ∧
    t = { s with regs := t.regs, mem := t.mem, pc := s.pc + 2 }) ∧
  ∀ o : Byte, BadRegisterFaults (.push o)

/-- R97: PUSH whose operand names a register (PushStoresBelowStackPointer has the other operands), with register 7 at 0:
StackOverflow, and nothing else is changed. -/
def Obligations.PushOverflowFaults : Prop :=
  ∀ (s : State) (a : Fin 8), s.reg 7 = 0 →
    ∃ t, exec (.push (regByte a)) s = .next t ∧ FaultsWith s t (some (Config.opc .push)) .stackOverflow .nothing

/-- `42_stack.md` R73: POP below the marker. POP R7 loads and then increments what it loaded (the spec's D10,
notes/assumptions/8.md). Memory is unchanged. -/
def Obligations.PopLoadsTopOfStack : Prop :=
  (∀ (s : State) (a : Fin 8), (s.reg 7).toNat < 0xF4 → ∃ t, exec (.pop (regByte a)) s = .next t ∧
    (a ≠ 7 → t.reg a = s.mem.get (s.reg 7).toNat ∧ t.reg 7 = s.reg 7 + 1) ∧
    (a = 7 → t.reg 7 = s.mem.get (s.reg 7).toNat + 1) ∧
    (∀ r : Fin 8, r ≠ 7 → r ≠ a → t.reg r = s.reg r) ∧ t = { s with regs := t.regs, pc := s.pc + 2 }) ∧
  ∀ o : Byte, BadRegisterFaults (.pop o)

/-- R96: POP whose operand names a register (PopLoadsTopOfStack has the other operands), with register 7 at or above 0xF4:
StackUnderflow, and nothing else is changed. -/
def Obligations.PopUnderflowFaults : Prop :=
  ∀ (s : State) (a : Fin 8), 0xF4 ≤ (s.reg 7).toNat →
    ∃ t, exec (.pop (regByte a)) s = .next t ∧ FaultsWith s t (some (Config.opc .pop)) .stackUnderflow .nothing

/-- `43_alu_arithmetic.md` R76 (with D7, notes/assumptions/6.md): ADD. -/
def Obligations.AddIsModulo256 : Prop :=
  (∀ (s : State) (a b : Fin 8), ∃ t, exec (.add (regByte a) (regByte b)) s = .next t ∧
    (t.reg a).toNat = ((s.reg a).toNat + (s.reg b).toNat) % 256 ∧ WritesOnly s t a 3) ∧
  ∀ o1 o2 : Byte, BadRegisterFaults (.add o1 o2)

/-- `43_alu_arithmetic.md` R77 (with D7, notes/assumptions/6.md): SUB; the remainder is the mathematical one, of an
integer that may be negative. -/
def Obligations.SubIsModulo256 : Prop :=
  (∀ (s : State) (a b : Fin 8), ∃ t, exec (.sub (regByte a) (regByte b)) s = .next t ∧
    ((t.reg a).toNat : Int) = (((s.reg a).toNat : Int) - (s.reg b).toNat) % 256 ∧ WritesOnly s t a 3) ∧
  ∀ o1 o2 : Byte, BadRegisterFaults (.sub o1 o2)

/-- `43_alu_arithmetic.md` R78 (with D7, notes/assumptions/6.md): MUL. -/
def Obligations.MulIsModulo256 : Prop :=
  (∀ (s : State) (a b : Fin 8), ∃ t, exec (.mul (regByte a) (regByte b)) s = .next t ∧
    (t.reg a).toNat = (s.reg a).toNat * (s.reg b).toNat % 256 ∧ WritesOnly s t a 3) ∧
  ∀ o1 o2 : Byte, BadRegisterFaults (.mul o1 o2)

/-- `43_alu_arithmetic.md` R79: DIV, unsigned, by a divisor that is not 0 and by 0. That it is unsigned is
the spec's D13 (notes/assumptions/11.md), the fault of a bad register operand its D7 (notes/assumptions/6.md). -/
def Obligations.DivTruncatesOrFaults : Prop :=
  (∀ (s : State) (a b : Fin 8), s.reg b ≠ 0 → ∃ t, exec (.div (regByte a) (regByte b)) s = .next t ∧
    (t.reg a).toNat = (s.reg a).toNat / (s.reg b).toNat ∧ WritesOnly s t a 3) ∧
  (∀ (s : State) (a b : Fin 8), s.reg b = 0 → ∃ t, exec (.div (regByte a) (regByte b)) s = .next t ∧
    FaultsWith s t (some (Config.opc .div)) .divisionByZero .nothing) ∧
  ∀ o1 o2 : Byte, BadRegisterFaults (.div o1 o2)

/-- `43_alu_arithmetic.md` R80: MOD, unsigned, by a divisor that is not 0 and by 0. That it is unsigned is
the spec's D13 (notes/assumptions/11.md), the fault of a bad register operand its D7 (notes/assumptions/6.md). -/
def Obligations.ModIsRemainderOrFaults : Prop :=
  (∀ (s : State) (a b : Fin 8), s.reg b ≠ 0 → ∃ t, exec (.mod (regByte a) (regByte b)) s = .next t ∧
    (t.reg a).toNat = (s.reg a).toNat % (s.reg b).toNat ∧ WritesOnly s t a 3) ∧
  (∀ (s : State) (a b : Fin 8), s.reg b = 0 → ∃ t, exec (.mod (regByte a) (regByte b)) s = .next t ∧
    FaultsWith s t (some (Config.opc .mod)) .divisionByZero .nothing) ∧
  ∀ o1 o2 : Byte, BadRegisterFaults (.mod o1 o2)

/-- `43_alu_arithmetic.md` R81 (with D7, notes/assumptions/6.md): INC. -/
def Obligations.IncAddsOne : Prop :=
  (∀ (s : State) (a : Fin 8), ∃ t, exec (.inc (regByte a)) s = .next t ∧
    (t.reg a).toNat = ((s.reg a).toNat + 1) % 256 ∧ WritesOnly s t a 2) ∧
  ∀ o : Byte, BadRegisterFaults (.inc o)

/-- `43_alu_arithmetic.md` R82 (with D7, notes/assumptions/6.md): DEC. -/
def Obligations.DecTakesOne : Prop :=
  (∀ (s : State) (a : Fin 8), ∃ t, exec (.dec (regByte a)) s = .next t ∧
    ((t.reg a).toNat : Int) = (((s.reg a).toNat : Int) - 1) % 256 ∧ WritesOnly s t a 2) ∧
  ∀ o : Byte, BadRegisterFaults (.dec o)

/-- `44_alu_compare_logic_shift.md` R84: CMP writes the whole of `fl`, unsigned (the spec's D2, D3 and D13,
notes/assumptions/2.md, 11.md), and nothing else. -/
def Obligations.CmpWritesFlags : Prop :=
  (∀ (s : State) (a b : Fin 8), exec (.cmp (regByte a) (regByte b)) s = .next { s with
    fl := if (s.reg a).toNat = (s.reg b).toNat then 0x01 else if (s.reg b).toNat < (s.reg a).toNat then 0x02 else 0x04
    pc := s.pc + 3 }) ∧
  ∀ o1 o2 : Byte, BadRegisterFaults (.cmp o1 o2)

/-- `44_alu_compare_logic_shift.md` R85 (with D7, notes/assumptions/6.md): AND, bit by bit. -/
def Obligations.AndIsBitwise : Prop :=
  (∀ (s : State) (a b : Fin 8), ∃ t, exec (.and (regByte a) (regByte b)) s = .next t ∧
    (∀ k < 8, (t.reg a).getLsbD k = ((s.reg a).getLsbD k && (s.reg b).getLsbD k)) ∧ WritesOnly s t a 3) ∧
  ∀ o1 o2 : Byte, BadRegisterFaults (.and o1 o2)

/-- `44_alu_compare_logic_shift.md` R86 (with D7, notes/assumptions/6.md): OR, bit by bit. -/
def Obligations.OrIsBitwise : Prop :=
  (∀ (s : State) (a b : Fin 8), ∃ t, exec (.or (regByte a) (regByte b)) s = .next t ∧
    (∀ k < 8, (t.reg a).getLsbD k = ((s.reg a).getLsbD k || (s.reg b).getLsbD k)) ∧ WritesOnly s t a 3) ∧
  ∀ o1 o2 : Byte, BadRegisterFaults (.or o1 o2)

/-- `44_alu_compare_logic_shift.md` R87 (with D7, notes/assumptions/6.md): XOR, bit by bit. -/
def Obligations.XorIsBitwise : Prop :=
  (∀ (s : State) (a b : Fin 8), ∃ t, exec (.xor (regByte a) (regByte b)) s = .next t ∧
    (∀ k < 8, (t.reg a).getLsbD k = ((s.reg a).getLsbD k != (s.reg b).getLsbD k)) ∧ WritesOnly s t a 3) ∧
  ∀ o1 o2 : Byte, BadRegisterFaults (.xor o1 o2)

/-- `44_alu_compare_logic_shift.md` R88 (with D7, notes/assumptions/6.md): NOT; as a number, 255 less the value. -/
def Obligations.NotIsComplement : Prop :=
  (∀ (s : State) (a : Fin 8), ∃ t, exec (.not (regByte a)) s = .next t ∧
    (t.reg a).toNat = 255 - (s.reg a).toNat ∧ WritesOnly s t a 2) ∧
  ∀ o : Byte, BadRegisterFaults (.not o)

/-- `44_alu_compare_logic_shift.md` R89: SHL by the whole value of the second register (the spec's D12,
notes/assumptions/10.md): `va * 2^vb` modulo 256, so 0 from a count of 8 up. -/
def Obligations.ShlShiftsByWholeCount : Prop :=
  (∀ (s : State) (a b : Fin 8), ∃ t, exec (.shl (regByte a) (regByte b)) s = .next t ∧
    (t.reg a).toNat = (s.reg a).toNat * 2 ^ (s.reg b).toNat % 256 ∧
    (8 ≤ (s.reg b).toNat → t.reg a = 0) ∧ WritesOnly s t a 3) ∧
  ∀ o1 o2 : Byte, BadRegisterFaults (.shl o1 o2)

/-- `44_alu_compare_logic_shift.md` R90: SHR, logical, by the whole value of the second register (the spec's D12 and D13,
notes/assumptions/10.md, 11.md). -/
def Obligations.ShrShiftsByWholeCount : Prop :=
  (∀ (s : State) (a b : Fin 8), ∃ t, exec (.shr (regByte a) (regByte b)) s = .next t ∧
    (t.reg a).toNat = (s.reg a).toNat / 2 ^ (s.reg b).toNat ∧
    (8 ≤ (s.reg b).toNat → t.reg a = 0) ∧ WritesOnly s t a 3) ∧
  ∀ o1 o2 : Byte, BadRegisterFaults (.shr o1 o2)

/-! ## The stack and the division law -/

/-- `42_stack.md` R74 point 2, the spec's own inference, with its D10 (notes/assumptions/8.md): PUSH Ra then POP Ra, where
neither faults, restores every register, SP among them, for a = 7 too; the byte stays in memory and no other byte has
changed. -/
def Obligations.PushThenPopRestores : Prop :=
  ∀ (s : State) (a : Fin 8), s.mem.wf → 1 ≤ (s.reg 7).toNat → (s.reg 7).toNat ≤ 0xF4 →
    ∃ t u, exec (.push (regByte a)) s = .next t ∧ exec (.pop (regByte a)) t = .next u ∧
      u = { s with pc := s.pc + 4, mem := t.mem } ∧
      u.mem.get ((s.reg 7).toNat - 1) = (if a = 7 then s.reg 7 - 1 else s.reg a) ∧
      ∀ b : Nat, b ≠ (s.reg 7).toNat - 1 → u.mem.get b = s.mem.get b

/-- `42_stack.md` R74 point 3, the spec's own inference: PUSH Ra then POP Rb copies `x[a]` to `x[b]` and restores SP. -/
def Obligations.PushThenPopCopies : Prop :=
  ∀ (s : State) (a b : Fin 8), a ≠ 7 → b ≠ 7 → s.mem.wf → 1 ≤ (s.reg 7).toNat → (s.reg 7).toNat ≤ 0xF4 →
    ∃ t u, exec (.push (regByte a)) s = .next t ∧ exec (.pop (regByte b)) t = .next u ∧
      u.reg b = s.reg a ∧ ∀ r : Fin 8, r ≠ b → u.reg r = s.reg r

/-- `42_stack.md` R74 point 1 (with the spec's D11, notes/assumptions/9.md): while only PUSH and POP move register 7 it
stays in 0 to 0xF4, no other instruction moves it, and no cell from 0xF4 up is written. An operand byte of 8 or more names no
register (D7, notes/assumptions/6.md). -/
def Obligations.StackPointerStaysInRange : Prop :=
  ∀ (i : Instr) (s t : State), ¬ NamesSpAsDest i → StackInRange s → exec i s = .next t →
    StackInRange t ∧ ((∀ o, i ≠ .push o) → (∀ o, i ≠ .pop o) → t.reg 7 = s.reg 7) ∧
      ∀ a : Nat, 0xF4 ≤ a → t.mem.get a = s.mem.get a

/-- `20_memory.md` R43, the spec's own inference: the byte PUSH stores is the one a later fetch of that address reads, while
the memory is the one PUSH left. That PUSH R7 stores the decremented pointer is the spec's D10 (notes/assumptions/8.md), that
it stores above 0xF4 its D11 (notes/assumptions/9.md). -/
def Obligations.PushedByteIsFetched : Prop :=
  ∀ (s t u : State) (a : Fin 8), s.mem.wf → s.reg 7 ≠ 0 → exec (.push (regByte a)) s = .next t → u.mem = t.mem →
    u.pc = pushAddress s → codeRead u 0 = .ok (t.mem.get (pushAddress s)) ∧
      codeRead u 0 = .ok (if a = 7 then s.reg 7 - 1 else s.reg a)

/-- `43_alu_arithmetic.md` R83 point 5: DIV and MOD of the same operands agree: quotient times divisor plus remainder is
the dividend, and the remainder is below the divisor, as unsigned numbers (the spec's D13, notes/assumptions/11.md). -/
def Obligations.DivisionLaw : Prop :=
  ∀ (s : State) (a b : Fin 8), s.reg b ≠ 0 →
    ∃ t u, exec (.div (regByte a) (regByte b)) s = .next t ∧ exec (.mod (regByte a) (regByte b)) s = .next u ∧
      (t.reg a).toNat * (s.reg b).toNat + (u.reg a).toNat = (s.reg a).toNat ∧
      (u.reg a).toNat < (s.reg b).toNat
end

