-- ==== Sys2Proof/Laws/State.lean ====
section
/-! SUPPORT. One lemma per field per update, all true by rfl, so that no later proof unfolds a record update. -/
namespace Sys2Proof.Machine

variable (s : State) (i : Fin 8) (v : Int) (b : Byte) (r : RunState) (t a : Nat) (o : Option Byte) (c : Cause)

@[simp] theorem State.setReg_regs : (s.setReg i v).regs = s.regs.set i (narrow v) := rfl
@[simp] theorem State.setReg_pc : (s.setReg i v).pc = s.pc := rfl
@[simp] theorem State.setReg_fl : (s.setReg i v).fl = s.fl := rfl
@[simp] theorem State.setReg_run : (s.setReg i v).run = s.run := rfl
@[simp] theorem State.setReg_fault : (s.setReg i v).fault = s.fault := rfl
@[simp] theorem State.setReg_mem : (s.setReg i v).mem = s.mem := rfl
@[simp] theorem State.setReg_out : (s.setReg i v).out = s.out := rfl

@[simp] theorem State.setFl_regs : (s.setFl b).regs = s.regs := rfl
@[simp] theorem State.setFl_pc : (s.setFl b).pc = s.pc := rfl
@[simp] theorem State.setFl_fl : (s.setFl b).fl = b := rfl
@[simp] theorem State.setFl_run : (s.setFl b).run = s.run := rfl
@[simp] theorem State.setFl_fault : (s.setFl b).fault = s.fault := rfl
@[simp] theorem State.setFl_mem : (s.setFl b).mem = s.mem := rfl
@[simp] theorem State.setFl_out : (s.setFl b).out = s.out := rfl

@[simp] theorem State.setFl_reg : (s.setFl b).reg i = s.reg i := rfl

@[simp] theorem State.setRun_regs : (s.setRun r).regs = s.regs := rfl
@[simp] theorem State.setRun_pc : (s.setRun r).pc = s.pc := rfl
@[simp] theorem State.setRun_fl : (s.setRun r).fl = s.fl := rfl
@[simp] theorem State.setRun_run : (s.setRun r).run = r := rfl
@[simp] theorem State.setRun_fault : (s.setRun r).fault = s.fault := rfl
@[simp] theorem State.setRun_mem : (s.setRun r).mem = s.mem := rfl
@[simp] theorem State.setRun_out : (s.setRun r).out = s.out := rfl

@[simp] theorem State.setRun_reg : (s.setRun r).reg i = s.reg i := rfl

@[simp] theorem State.setPc_regs : (s.setPc t).regs = s.regs := rfl
@[simp] theorem State.setPc_pc : (s.setPc t).pc = t := rfl
@[simp] theorem State.setPc_fl : (s.setPc t).fl = s.fl := rfl
@[simp] theorem State.setPc_run : (s.setPc t).run = s.run := rfl
@[simp] theorem State.setPc_fault : (s.setPc t).fault = s.fault := rfl
@[simp] theorem State.setPc_mem : (s.setPc t).mem = s.mem := rfl
@[simp] theorem State.setPc_out : (s.setPc t).out = s.out := rfl

@[simp] theorem State.setPc_reg : (s.setPc t).reg i = s.reg i := rfl

@[simp] theorem State.emit_regs : (s.emit b).regs = s.regs := rfl
@[simp] theorem State.emit_pc : (s.emit b).pc = s.pc := rfl
@[simp] theorem State.emit_fl : (s.emit b).fl = s.fl := rfl
@[simp] theorem State.emit_run : (s.emit b).run = s.run := rfl
@[simp] theorem State.emit_fault : (s.emit b).fault = s.fault := rfl
@[simp] theorem State.emit_mem : (s.emit b).mem = s.mem := rfl
@[simp] theorem State.emit_out : (s.emit b).out = s.out ++ [b] := rfl

@[simp] theorem State.emit_reg : (s.emit b).reg i = s.reg i := rfl

@[simp] theorem State.setMem_regs : (s.setMem a b).regs = s.regs := rfl
@[simp] theorem State.setMem_pc : (s.setMem a b).pc = s.pc := rfl
@[simp] theorem State.setMem_fl : (s.setMem a b).fl = s.fl := rfl
@[simp] theorem State.setMem_run : (s.setMem a b).run = s.run := rfl
@[simp] theorem State.setMem_fault : (s.setMem a b).fault = s.fault := rfl
@[simp] theorem State.setMem_mem : (s.setMem a b).mem = s.mem.set a b := rfl
@[simp] theorem State.setMem_out : (s.setMem a b).out = s.out := rfl

@[simp] theorem State.setMem_reg : (s.setMem a b).reg i = s.reg i := rfl

@[simp] theorem faultEntry_regs : (faultEntry o c s).regs = s.regs := rfl
@[simp] theorem faultEntry_pc : (faultEntry o c s).pc = s.pc := rfl
@[simp] theorem faultEntry_fl : (faultEntry o c s).fl = s.fl := rfl
@[simp] theorem faultEntry_run : (faultEntry o c s).run = .halted := rfl
@[simp] theorem faultEntry_fault : (faultEntry o c s).fault = some ⟨c.kind, c.kind.code, s.pc, o, c.info⟩ := rfl
@[simp] theorem faultEntry_mem : (faultEntry o c s).mem = s.mem := rfl
@[simp] theorem faultEntry_out : (faultEntry o c s).out = s.out := rfl

@[simp] theorem faultEntry_reg : (faultEntry o c s).reg i = s.reg i := rfl

/-- A register just written holds the value narrowed to a byte. -/
@[simp] theorem State.setReg_reg_same : (s.setReg i v).reg i = narrow v := by
  simp [State.reg]

/-- Writing one register leaves every other as it was. -/
theorem State.setReg_reg_other (s : State) (v : Int) {i j : Fin 8} (h : j ≠ i) : (s.setReg i v).reg j = s.reg j := by
  have : i.val ≠ j.val := fun e => h (Fin.ext e.symm)
  simp [State.reg, this]

/-- Two states are equal when all seven fields are. -/
theorem State.ext_fields {s t : State} (h1 : s.regs = t.regs) (h2 : s.pc = t.pc) (h3 : s.fl = t.fl) (h4 : s.run = t.run)
    (h5 : s.fault = t.fault) (h6 : s.mem = t.mem) (h7 : s.out = t.out) : s = t := by
  cases s; cases t; simp_all

end Sys2Proof.Machine
end

