-- ==== Sys2Proof/Laws/Memory.lean ====
section
/-! SUPPORT. The laws of memory: a read after a write, and that every operation keeps the canonical form. -/
namespace Sys2Proof.Machine

/-- An address below every listed one reads the reset contents. -/
theorem Memory.get_of_below (m : Memory) (a : Nat) (h : ∀ p ∈ m, a < p.1) : Memory.get m a = Config.memReset := by
  induction m with
  | nil => rfl
  | cons p rest ih =>
    have hp := h p (by simp)
    have : a ≠ p.1 := by omega
    simp only [Memory.get, this, if_false]
    exact ih fun q hq => h q (by simp [hq])

/-- A write leaves every other address as it was. -/
theorem Memory.get_set_other (m : Memory) {a b : Nat} (v : Byte) (h : b ≠ a) :
    Memory.get (Memory.set m a v) b = Memory.get m b := by
  induction m with
  | nil => simp only [Memory.set]; split <;> simp [Memory.get, h]
  | cons p rest ih =>
    obtain ⟨c, w⟩ := p
    simp only [Memory.set]
    split
    · split <;> simp [Memory.get, h]
    · split
      · subst_vars; split <;> simp [Memory.get, h]
      · simp [Memory.get, ih]

/-- A byte just written reads back, in a memory in its canonical form. -/
theorem Memory.get_set_same (m : Memory) (a : Nat) (v : Byte) (h : Memory.wf m) :
    Memory.get (Memory.set m a v) a = v := by
  obtain ⟨hs, hb⟩ := h
  induction m with
  | nil => simp only [Memory.set]; split <;> simp_all [Memory.get]
  | cons p rest ih =>
    obtain ⟨c, w⟩ := p
    rw [List.pairwise_cons] at hs
    simp only [Memory.set]
    split
    · rename_i hac
      split
      · rename_i hv
        rw [hv]
        refine Memory.get_of_below _ a fun q hq => ?_
        rcases List.mem_cons.1 hq with rfl | hq
        · exact hac
        · have := hs.1 q hq; simp at this; omega
      · simp [Memory.get]
    · split
      · subst_vars
        split
        · rename_i hv
          rw [hv]
          exact Memory.get_of_below _ _ fun q hq => hs.1 q hq
        · simp [Memory.get]
      · rename_i hac
        simp only [Memory.get, hac, if_false]
        exact ih hs.2 fun q hq => hb q (by simp [hq])

/-- An entry of the memory after a write is the one written or was there before. -/
theorem Memory.mem_set (m : Memory) (a : Nat) (v : Byte) {p : Host.Cell} (h : p ∈ Memory.set m a v) :
    (p = (a, v) ∧ v ≠ Config.memReset) ∨ p ∈ m := by
  induction m with
  | nil =>
    simp only [Memory.set] at h
    split at h <;> simp_all
  | cons q rest ih =>
    obtain ⟨c, w⟩ := q
    simp only [Memory.set] at h
    split at h
    · split at h <;> simp_all
    · split at h
      · split at h <;> simp_all
        rcases h with h | h <;> simp [h]
      · rcases List.mem_cons.1 h with h | h
        · simp [h]
        · rcases ih h with h | h <;> simp [h]

/-- A write inside the address space keeps the canonical form. -/
theorem Memory.set_wf (m : Memory) (a : Nat) (v : Byte) (ha : a < 256) (h : Memory.wf m) :
    Memory.wf (Memory.set m a v) := by
  obtain ⟨hs, hb⟩ := h
  refine ⟨?_, fun p hp => ?_⟩
  · induction m with
    | nil => simp only [Memory.set]; split <;> simp
    | cons q rest ih =>
      obtain ⟨c, w⟩ := q
      have hs' := List.pairwise_cons.1 hs
      simp only [Memory.set]
      split
      · rename_i hac
        split
        · exact hs
        · refine List.pairwise_cons.2 ⟨fun p hp => ?_, hs⟩
          rcases List.mem_cons.1 hp with rfl | hp
          · exact hac
          · have := hs'.1 p hp; simp at this ⊢; omega
      · split
        · subst_vars
          split
          · exact hs'.2
          · exact List.pairwise_cons.2 ⟨hs'.1, hs'.2⟩
        · refine List.pairwise_cons.2 ⟨fun p hp => ?_, ih hs'.2 fun p hp => hb p (by simp [hp])⟩
          rcases Memory.mem_set rest a v hp with ⟨rfl, -⟩ | hp
          · simp; omega
          · exact hs'.1 p hp
  · rcases Memory.mem_set m a v hp with ⟨rfl, hv⟩ | hp
    · exact ⟨ha, hv⟩
    · exact hb p hp

/-- Reset's memory is in its canonical form. -/
theorem Memory.reset_wf : Memory.wf State.reset.mem := by decide

/-- A checked write that succeeds keeps the canonical form. -/
theorem memWrite_wf {a : Nat} {v : Int} {s t : State} (h : memWrite a v s = .ok t) (hw : s.mem.wf) : t.mem.wf := by
  simp only [memWrite, Config.memSize] at h
  split at h
  · cases h
  · cases h; exact Memory.set_wf _ _ _ (by omega) hw

/-- Placing bytes keeps the canonical form. -/
theorem State.placeBytes_wf (bs : List Byte) (s : State) (a : Nat) (h : s.mem.wf) : (s.placeBytes a bs).mem.wf := by
  induction bs generalizing s a with
  | nil => exact h
  | cons b bs ih =>
    refine ih _ _ ?_
    split
    · exact Memory.set_wf _ _ _ ‹_› h
    · exact h

/-- The host's load keeps the canonical form. -/
theorem hostLoad_wf (image : List (Fin 256 × Byte)) (s : State) (h : s.mem.wf) : (hostLoad image s).mem.wf := by
  induction image generalizing s with
  | nil => exact h
  | cons p image ih => exact ih (s.setMem p.1 p.2) (Memory.set_wf _ _ _ p.1.isLt h)

end Sys2Proof.Machine
end

