-- ==== Sys2Proof/Laws/Ops.lean ====
section
/-! SUPPORT. What each shared operation can do, said once: the lemmas that later proofs cite instead of unfolding the
operation. -/
namespace Sys2Proof.Machine

/-- Narrowing is the mathematical remainder (`10_state.md` R12). -/
theorem narrow_toNat (v : Int) : ((narrow v).toNat : Int) = v % 256 := by
  have := Int.emod_nonneg v (b := 256) (by decide)
  simp [narrow, BitVec.toNat_ofInt, this]

/-- A natural number narrows to its remainder. -/
@[simp] theorem narrow_natCast (n : Nat) : narrow (n : Int) = BitVec.ofNat 8 n := by
  simp [narrow]

/-- A byte's own number narrows to the byte. -/
theorem narrow_toNat_self (b : Byte) : narrow (b.toNat : Int) = b := by simp

/-- One less than a byte, modulo 256. -/
@[simp] theorem narrow_toNat_sub_one (b : Byte) : narrow ((b.toNat : Int) - 1) = b - 1 := by
  have h := narrow_toNat ((b.toNat : Int) - 1)
  apply BitVec.eq_of_toNat_eq
  rw [BitVec.toNat_sub]; simp; omega

/-- One more than a byte, modulo 256. -/
@[simp] theorem narrow_toNat_add_one (b : Byte) : narrow ((b.toNat : Int) + 1) = b + 1 := by
  rw [show ((b.toNat : Int) + 1) = ((b.toNat + 1 : Nat) : Int) by simp, narrow_natCast]
  apply BitVec.eq_of_toNat_eq; simp

/-- A byte that is not 0, less one. -/
theorem toNat_sub_one {b : Byte} (h : b ≠ 0) : (b - 1).toNat = b.toNat - 1 := by
  have h0 : b.toNat ≠ 0 := fun e => h (BitVec.eq_of_toNat_eq (by simpa using e))
  have := b.isLt
  rw [BitVec.toNat_sub]; simp; omega

/-- An operand byte below 8 names that register. -/
theorem regIndex_ok {o : Byte} (h : o.toNat < 8) : regIndex o = .ok ⟨o.toNat, h⟩ := by
  simp [regIndex, h]

/-- An operand byte of 8 or more raises AddressOutOfRange with the byte's value. -/
theorem regIndex_error {o : Byte} (h : 8 ≤ o.toNat) : regIndex o = .error (.addressOutOfRange .reg o.toNat) := by
  have : ¬ o.toNat < 8 := by omega
  simp [regIndex, this]

/-- The operand byte of a register has the register's number. -/
@[simp] theorem regByte_toNat (r : Fin 8) : (regByte r).toNat = r.val := by
  have := r.isLt
  simp [regByte]; omega

/-- The operand byte of a register names that register. -/
@[simp] theorem regIndex_regByte (r : Fin 8) : regIndex (regByte r) = .ok r := by
  rw [regIndex_ok (by simp)]; simp

/-- Every operand byte that names a register is the operand byte of one. -/
theorem exists_regByte {o : Byte} (h : o.toNat < 8) : ∃ r : Fin 8, o = regByte r :=
  ⟨⟨o.toNat, h⟩, BitVec.eq_of_toNat_eq (by simp)⟩

/-- Two registers with one operand byte are one register. -/
theorem regByte_injective {r q : Fin 8} (h : regByte r = regByte q) : r = q := by
  have := congrArg BitVec.toNat h
  simp at this; exact Fin.ext this

/-- A read inside memory. -/
theorem memRead_ok {a : Nat} (s : State) (h : a < 256) : memRead a s = .ok (s.mem.get a) := by
  simp [memRead]; omega

/-- A read outside memory raises, with its address. -/
theorem memRead_error {a : Nat} (s : State) (h : 256 ≤ a) : memRead a s = .error (.addressOutOfRange .mem a) := by
  simp [memRead, h]

/-- A write inside memory. -/
theorem memWrite_ok {a : Nat} (v : Int) (s : State) (h : a < 256) : memWrite a v s = .ok (s.setMem a (narrow v)) := by
  simp [memWrite]; omega

/-- A write outside memory raises, with its address. -/
theorem memWrite_error {a : Nat} (v : Int) (s : State) (h : 256 ≤ a) :
    memWrite a v s = .error (.addressOutOfRange .mem a) := by
  simp [memWrite, h]

/-- A handler that answers a state is completed by the advance. -/
@[simp] theorem complete_ok (ir : Byte) (s s' : State) : complete ir s (.ok s') = .next (advance ir s') := rfl

/-- A handler that raises is completed by the fault entry, from the state before it. -/
@[simp] theorem complete_error (ir : Byte) (s : State) (c : Cause) :
    complete ir s (.error c) = .next (faultEntry (some ir) c s) := rfl

/-- Completing a handler always answers a next state. -/
theorem complete_cases (ir : Byte) (s : State) (h : Except Cause State) :
    (∃ s', h = .ok s' ∧ complete ir s h = .next (advance ir s')) ∨
      (∃ c, h = .error c ∧ complete ir s h = .next (faultEntry (some ir) c s)) := by
  cases h with
  | ok s' => exact .inl ⟨s', rfl, rfl⟩
  | error c => exact .inr ⟨c, rfl, rfl⟩

/-- No instruction's opcode byte has the sets-PC bit (`30_encoding.md` R50). -/
theorem opcode_setsPc (i : Instr) : (decodeByte i.opcode).setsPc = false := by
  rw [Instr.opcode]; cases i.mnemonic <;> decide

/-- Bits 7-6 of an instruction's opcode byte count its operands (`40_run_loop.md` R64). -/
theorem opcode_operandCount (i : Instr) : (decodeByte i.opcode).operandCount = i.operands.length := by
  have h : ∀ m : Mnemonic, (decodeByte (Config.opc m)).operandCount = (m.build 0 0).operands.length := by
    intro m; cases m <;> decide
  rw [Instr.opcode, h]; cases i <;> rfl

/-- The opcode byte of each instruction has the sets-PC bit 0 and counts its operands: the advance moves `pc` past the
instruction. -/
theorem advance_opcode (i : Instr) (s : State) : advance i.opcode s = s.setPc (s.pc + (i.operands.length + 1)) := by
  rw [advance, opcode_setsPc, opcode_operandCount]; rfl

/-- A fault entry is what a statement calls a fault. -/
theorem faultEntry_eq (o : Option Byte) (c : Cause) (s : State) :
    faultEntry o c s = { s with run := .halted, fault := some ⟨c.kind, c.kind.code, s.pc, o, c.info⟩ } := rfl

/-- ALU2 on valid registers with a result. -/
theorem alu2_ok {f : Byte → Byte → Except Cause Int} {a b : Fin 8} {s : State} {r : Int}
    (h : f (s.reg a) (s.reg b) = .ok r) : alu2 f (regByte a) (regByte b) s = .ok (s.setReg a r) := by
  simp only [alu2, regIndex_regByte]
  change (f (s.reg a) (s.reg b) >>= fun r => Except.ok (s.setReg a r)) = _
  rw [h]; rfl

/-- ALU2 on valid registers whose function raises. -/
theorem alu2_raise {f : Byte → Byte → Except Cause Int} {a b : Fin 8} {s : State} {c : Cause}
    (h : f (s.reg a) (s.reg b) = .error c) : alu2 f (regByte a) (regByte b) s = .error c := by
  simp only [alu2, regIndex_regByte]
  change (f (s.reg a) (s.reg b) >>= fun r => Except.ok (s.setReg a r)) = _
  rw [h]; rfl

/-- ALU2 with a bad first operand. -/
theorem alu2_first (f : Byte → Byte → Except Cause Int) {o1 : Byte} (o2 : Byte) (s : State) (h : 8 ≤ o1.toNat) :
    alu2 f o1 o2 s = .error (.addressOutOfRange .reg o1.toNat) := by
  simp only [alu2, regIndex_error h]; rfl

/-- ALU2 with a good first and a bad second operand. -/
theorem alu2_second (f : Byte → Byte → Except Cause Int) {o1 o2 : Byte} (s : State) (h1 : o1.toNat < 8)
    (h2 : 8 ≤ o2.toNat) : alu2 f o1 o2 s = .error (.addressOutOfRange .reg o2.toNat) := by
  simp only [alu2, regIndex_ok h1, regIndex_error h2]; rfl

/-- All that ALU2 can answer. -/
theorem alu2_cases (f : Byte → Byte → Except Cause Int) (o1 o2 : Byte) (s : State) :
    (8 ≤ o1.toNat ∧ alu2 f o1 o2 s = .error (.addressOutOfRange .reg o1.toNat)) ∨
    (o1.toNat < 8 ∧ 8 ≤ o2.toNat ∧ alu2 f o1 o2 s = .error (.addressOutOfRange .reg o2.toNat)) ∨
    (∃ a b : Fin 8, o1 = regByte a ∧ o2 = regByte b ∧
      ((∃ r, f (s.reg a) (s.reg b) = .ok r ∧ alu2 f o1 o2 s = .ok (s.setReg a r)) ∨
        (∃ c, f (s.reg a) (s.reg b) = .error c ∧ alu2 f o1 o2 s = .error c))) := by
  by_cases h1 : o1.toNat < 8
  · by_cases h2 : o2.toNat < 8
    · obtain ⟨a, rfl⟩ := exists_regByte h1
      obtain ⟨b, rfl⟩ := exists_regByte h2
      refine .inr (.inr ⟨a, b, rfl, rfl, ?_⟩)
      cases hx : f (s.reg a) (s.reg b) with
      | ok r => exact .inl ⟨r, rfl, alu2_ok hx⟩
      | error c => exact .inr ⟨c, rfl, alu2_raise hx⟩
    · exact .inr (.inl ⟨h1, by omega, alu2_second f s h1 (by omega)⟩)
  · exact .inl ⟨by omega, alu2_first f o2 s (by omega)⟩

/-- ALU1 on a valid register. -/
theorem alu1_ok (g : Byte → Int) (a : Fin 8) (s : State) :
    alu1 g (regByte a) s = .ok (s.setReg a (g (s.reg a))) := by
  simp only [alu1, regIndex_regByte]; rfl

/-- ALU1 on a bad operand. -/
theorem alu1_error (g : Byte → Int) {o : Byte} (s : State) (h : 8 ≤ o.toNat) :
    alu1 g o s = .error (.addressOutOfRange .reg o.toNat) := by
  simp only [alu1, regIndex_error h]; rfl

/-- All that ALU1 can answer. -/
theorem alu1_cases (g : Byte → Int) (o : Byte) (s : State) :
    (8 ≤ o.toNat ∧ alu1 g o s = .error (.addressOutOfRange .reg o.toNat)) ∨
    (∃ a : Fin 8, o = regByte a ∧ alu1 g o s = .ok (s.setReg a (g (s.reg a)))) := by
  by_cases h : o.toNat < 8
  · obtain ⟨a, rfl⟩ := exists_regByte h
    exact .inr ⟨a, rfl, alu1_ok g a s⟩
  · exact .inl ⟨by omega, alu1_error g s (by omega)⟩

/-- With a pushed address to be had, PUSH stores one below the old stack pointer. -/
theorem pushAddress_eq {s : State} (h : s.reg 7 ≠ 0) : pushAddress s = (s.reg 7).toNat - 1 := by
  simp only [pushAddress, Config.spReg, State.setReg_reg_same, narrow_toNat_sub_one, toNat_sub_one h]

/-- PUSH stores inside memory in every state. -/
theorem pushAddress_lt (s : State) : pushAddress s < 256 := BitVec.isLt _

/-- PUSH's handler on a bad operand. -/
theorem pushHandler_bad {o : Byte} (s : State) (h : 8 ≤ o.toNat) :
    pushHandler o s = .error (.addressOutOfRange .reg o.toNat) := by
  simp only [pushHandler, regIndex_error h]; rfl

/-- PUSH's handler with no room. -/
theorem pushHandler_overflow {a : Fin 8} {s : State} (h : s.reg 7 = 0) :
    pushHandler (regByte a) s = .error .stackOverflow := by
  simp only [pushHandler, regIndex_regByte, Config.spReg, h]; rfl

/-- PUSH's handler with room: the decremented stack pointer, and the operand's value after the decrement stored. -/
theorem pushHandler_ok {a : Fin 8} {s : State} (h : s.reg 7 ≠ 0) :
    pushHandler (regByte a) s =
      .ok ((s.setReg 7 ((s.reg 7).toNat - 1)).setMem (pushAddress s) ((s.setReg 7 ((s.reg 7).toNat - 1)).reg a)) := by
  simp only [pushHandler, regIndex_regByte, Config.spReg, Except.bind, bind, h, if_false]
  rw [memWrite_ok _ _ (pushAddress_lt s), narrow_natCast, BitVec.ofNat_toNat, BitVec.setWidth_eq]

/-- All that PUSH's handler can answer. -/
theorem pushHandler_cases (o : Byte) (s : State) :
    (8 ≤ o.toNat ∧ pushHandler o s = .error (.addressOutOfRange .reg o.toNat)) ∨
    (∃ a : Fin 8, o = regByte a ∧
      ((s.reg 7 = 0 ∧ pushHandler o s = .error .stackOverflow) ∨
        (s.reg 7 ≠ 0 ∧ pushHandler o s = .ok ((s.setReg 7 ((s.reg 7).toNat - 1)).setMem (pushAddress s)
          ((s.setReg 7 ((s.reg 7).toNat - 1)).reg a))))) := by
  by_cases ho : o.toNat < 8
  · obtain ⟨a, rfl⟩ := exists_regByte ho
    by_cases h : s.reg 7 = 0
    · exact .inr ⟨a, rfl, .inl ⟨h, pushHandler_overflow h⟩⟩
    · exact .inr ⟨a, rfl, .inr ⟨h, pushHandler_ok h⟩⟩
  · exact .inl ⟨by omega, pushHandler_bad s (by omega)⟩

/-- POP's handler on a bad operand. -/
theorem popHandler_bad {o : Byte} (s : State) (h : 8 ≤ o.toNat) :
    popHandler o s = .error (.addressOutOfRange .reg o.toNat) := by
  simp only [popHandler, regIndex_error h]; rfl

/-- POP's handler with nothing pushed. -/
theorem popHandler_underflow {a : Fin 8} {s : State} (h : 0xF4 ≤ (s.reg 7).toNat) :
    popHandler (regByte a) s = .error .stackUnderflow := by
  have h' : Config.stackTop.toNat ≤ (s.reg 7).toNat := h
  simp only [popHandler, regIndex_regByte, Config.spReg, Except.bind, bind, h', if_true]; rfl

/-- POP's handler with a byte to pop: the load, then the increment of register 7 as the load left it. -/
theorem popHandler_ok {a : Fin 8} {s : State} (h : (s.reg 7).toNat < 0xF4) :
    popHandler (regByte a) s =
      .ok ((s.setReg a (s.mem.get (s.reg 7).toNat).toNat).setReg 7
        (((s.setReg a (s.mem.get (s.reg 7).toNat).toNat).reg 7).toNat + 1)) := by
  have h' : ¬ Config.stackTop.toNat ≤ (s.reg 7).toNat := Nat.not_le.2 h
  simp only [popHandler, regIndex_regByte, Config.spReg, Except.bind, bind, h', if_false,
    memRead_ok s (a := (s.reg 7).toNat) (by omega)]
  rfl

/-- All that POP's handler can answer. -/
theorem popHandler_cases (o : Byte) (s : State) :
    (8 ≤ o.toNat ∧ popHandler o s = .error (.addressOutOfRange .reg o.toNat)) ∨
    (∃ a : Fin 8, o = regByte a ∧
      ((0xF4 ≤ (s.reg 7).toNat ∧ popHandler o s = .error .stackUnderflow) ∨
        ((s.reg 7).toNat < 0xF4 ∧ popHandler o s = .ok ((s.setReg a (s.mem.get (s.reg 7).toNat).toNat).setReg 7
          (((s.setReg a (s.mem.get (s.reg 7).toNat).toNat).reg 7).toNat + 1))))) := by
  by_cases ho : o.toNat < 8
  · obtain ⟨a, rfl⟩ := exists_regByte ho
    by_cases h : (s.reg 7).toNat < 0xF4
    · exact .inr ⟨a, rfl, .inr ⟨h, popHandler_ok h⟩⟩
    · exact .inr ⟨a, rfl, .inl ⟨by omega, popHandler_underflow (by omega)⟩⟩
  · exact .inl ⟨by omega, popHandler_bad s (by omega)⟩

end Sys2Proof.Machine
end

