-- ==== Sys2Proof/Laws/Exec.lean ====
section
/-! SUPPORT. All that executing one instruction can do, said once for all 19: a fault entry with a cause the spec names, or
one of six effects followed by the advance. Invariants and frames come from this, not from unfolding the meanings. -/
namespace Sys2Proof.Machine

/-- What a handler that does not raise leaves, before the advance. -/
inductive Effect (i : Instr) (s : State) : State → Prop where
  | halts (h : i = .hlt) : Effect i s (s.setRun .halted)
  | emits (a : Fin 8) (h : i = .prn (regByte a)) : Effect i s (s.emit (s.reg a))
  | compares (a b : Fin 8) (h : i = .cmp (regByte a) (regByte b)) :
      Effect i s (s.setFl (compareFlags (s.reg a) (s.reg b)))
  | writes (a : Fin 8) (v : Int) (h : i.dest? = some (regByte a)) (hc : Completes i s) : Effect i s (s.setReg a v)
  | pushes (a : Fin 8) (h : i = .push (regByte a)) (h7 : s.reg 7 ≠ 0) :
      Effect i s ((s.setReg 7 ((s.reg 7).toNat - 1)).setMem (pushAddress s)
        ((s.setReg 7 ((s.reg 7).toNat - 1)).reg a))
  | pops (a : Fin 8) (h : i = .pop (regByte a)) (h7 : (s.reg 7).toNat < 0xF4) :
      Effect i s ((s.setReg a (s.mem.get (s.reg 7).toNat).toNat).setReg 7
        (((s.setReg a (s.mem.get (s.reg 7).toNat).toNat).reg 7).toNat + 1))

/-- What a handler can raise, and where: a register operand of 8 or more, or the instruction's own check. -/
def Raises (i : Instr) (s : State) (c : Cause) : Prop :=
  (∃ o ∈ i.regOperands, 8 ≤ o.toNat ∧ c = .addressOutOfRange .reg o.toNat) ∨
  (c = .divisionByZero ∧ ∃ (o : Byte) (b : Fin 8), (i = .div o (regByte b) ∨ i = .mod o (regByte b)) ∧ s.reg b = 0) ∨
  (c = .stackUnderflow ∧ (∃ o, i = .pop o) ∧ 0xF4 ≤ (s.reg 7).toNat) ∨
  (c = .stackOverflow ∧ (∃ o, i = .push o) ∧ s.reg 7 = 0)

/-- The two ways an instruction ends. -/
def ExecEnds (i : Instr) (s : State) (r : Host.Outcome State Fault Refusal) : Prop :=
  (∃ s', Effect i s s' ∧ r = .next (advance i.opcode s')) ∨
    ∃ c, Raises i s c ∧ r = .next (faultEntry (some i.opcode) c s)

/-- A two-operand ALU instruction whose function raises at most what the instruction may. -/
theorem alu2_ends {i : Instr} {o1 o2 : Byte} {f : Byte → Byte → Except Cause Int} (s : State)
    (hr : i.regOperands = [o1, o2]) (hd : i.dest? = some o1)
    (ho : ∀ b : Fin 8, o2 = regByte b → ∀ va r, f va (s.reg b) = .ok r → OwnCheckPasses i s)
    (hf : ∀ b : Fin 8, o2 = regByte b → ∀ va c, f va (s.reg b) = .error c → Raises i s c) :
    ExecEnds i s (complete i.opcode s (alu2 f o1 o2 s)) := by
  rcases alu2_cases f o1 o2 s with ⟨h, e⟩ | ⟨-, h, e⟩ | ⟨a, b, rfl, rfl, ⟨r, h, e⟩ | ⟨c, h, e⟩⟩ <;> rw [e]
  · exact .inr ⟨_, .inl ⟨o1, by simp [hr], h, rfl⟩, rfl⟩
  · exact .inr ⟨_, .inl ⟨o2, by simp [hr], h, rfl⟩, rfl⟩
  · exact .inl ⟨_, .writes a r hd ⟨by simp [WellFormed, hr, NamesRegister], ho b rfl _ _ h⟩, rfl⟩
  · exact .inr ⟨_, hf b rfl _ _ h, rfl⟩

/-- A two-operand ALU instruction whose function never raises. -/
theorem alu2_total_ends {i : Instr} {o1 o2 : Byte} (f : Byte → Byte → Int) (s : State) (hr : i.regOperands = [o1, o2])
    (hd : i.dest? = some o1) (ho : OwnCheckPasses i s) :
    ExecEnds i s (complete i.opcode s (alu2 (fun va vb => .ok (f va vb)) o1 o2 s)) :=
  alu2_ends s hr hd (fun _ _ _ _ _ => ho) (by intro _ _ _ _ h; cases h)

/-- A one-operand ALU instruction. -/
theorem alu1_ends {i : Instr} {o : Byte} (g : Byte → Int) (s : State) (hr : i.regOperands = [o])
    (hd : i.dest? = some o) (ho : OwnCheckPasses i s) : ExecEnds i s (complete i.opcode s (alu1 g o s)) := by
  rcases alu1_cases g o s with ⟨h, e⟩ | ⟨a, rfl, e⟩ <;> rw [e]
  · exact .inr ⟨_, .inl ⟨o, by simp [hr], h, rfl⟩, rfl⟩
  · exact .inl ⟨_, .writes a _ hd ⟨by simp [WellFormed, hr, NamesRegister], ho⟩, rfl⟩

/-- All that `exec` can do. -/
theorem exec_ends (i : Instr) (s : State) : ExecEnds i s (exec i s) := by
  cases i with
  | hlt => exact .inl ⟨_, .halts rfl, rfl⟩
  | ldi a imm =>
    by_cases h : a.toNat < 8
    · obtain ⟨r, rfl⟩ := exists_regByte h
      exact .inl ⟨_, .writes r _ rfl ⟨by simp [WellFormed, Instr.regOperands, NamesRegister], trivial⟩,
        by simp only [exec, execLdi, regIndex_regByte]; rfl⟩
    · exact .inr ⟨_, .inl ⟨a, by simp [Instr.regOperands], by omega, rfl⟩,
        by simp only [exec, execLdi, regIndex_error (Nat.le_of_not_lt h)]; rfl⟩
  | prn a =>
    by_cases h : a.toNat < 8
    · obtain ⟨r, rfl⟩ := exists_regByte h
      exact .inl ⟨_, .emits r rfl, by simp only [exec, execPrn, regIndex_regByte]; rfl⟩
    · exact .inr ⟨_, .inl ⟨a, by simp [Instr.regOperands, Instr.operands], by omega, rfl⟩,
        by simp only [exec, execPrn, regIndex_error (Nat.le_of_not_lt h)]; rfl⟩
  | push a =>
    simp only [exec, execPush]
    rcases pushHandler_cases a s with ⟨h, e⟩ | ⟨r, rfl, ⟨h, e⟩ | ⟨h, e⟩⟩ <;> rw [e]
    · exact .inr ⟨_, .inl ⟨a, by simp [Instr.regOperands, Instr.operands], h, rfl⟩, rfl⟩
    · exact .inr ⟨_, .inr (.inr (.inr ⟨rfl, ⟨_, rfl⟩, h⟩)), rfl⟩
    · exact .inl ⟨_, .pushes r rfl h, rfl⟩
  | pop a =>
    simp only [exec, execPop]
    rcases popHandler_cases a s with ⟨h, e⟩ | ⟨r, rfl, ⟨h, e⟩ | ⟨h, e⟩⟩ <;> rw [e]
    · exact .inr ⟨_, .inl ⟨a, by simp [Instr.regOperands, Instr.operands], h, rfl⟩, rfl⟩
    · exact .inr ⟨_, .inr (.inr (.inl ⟨rfl, ⟨_, rfl⟩, h⟩)), rfl⟩
    · exact .inl ⟨_, .pops r rfl h, rfl⟩
  | add a b => exact alu2_total_ends (i := .add a b) _ s rfl rfl trivial
  | sub a b => exact alu2_total_ends (i := .sub a b) _ s rfl rfl trivial
  | mul a b => exact alu2_total_ends (i := .mul a b) _ s rfl rfl trivial
  | div a b =>
    refine alu2_ends (i := .div a b) s rfl rfl (fun q hq va r h => ?_) fun q hq va c h => ?_
    · simp only [quotient] at h
      split at h
      · cases h
      · rintro p hp
        rw [show p = q from regByte_injective (BitVec.eq_of_toNat_eq (by rw [regByte_toNat, hp, hq]))]
        assumption
    · simp only [quotient] at h
      split at h <;> cases h
      exact .inr (.inl ⟨rfl, a, q, .inl (by rw [hq]), ‹_›⟩)
  | mod a b =>
    refine alu2_ends (i := .mod a b) s rfl rfl (fun q hq va r h => ?_) fun q hq va c h => ?_
    · simp only [remainder] at h
      split at h
      · cases h
      · rintro p hp
        rw [show p = q from regByte_injective (BitVec.eq_of_toNat_eq (by rw [regByte_toNat, hp, hq]))]
        assumption
    · simp only [remainder] at h
      split at h <;> cases h
      exact .inr (.inl ⟨rfl, a, q, .inr (by rw [hq]), ‹_›⟩)
  | inc a => exact alu1_ends (i := .inc a) _ s rfl rfl trivial
  | dec a => exact alu1_ends (i := .dec a) _ s rfl rfl trivial
  | cmp a b =>
    by_cases h1 : a.toNat < 8
    · by_cases h2 : b.toNat < 8
      · obtain ⟨r, rfl⟩ := exists_regByte h1
        obtain ⟨q, rfl⟩ := exists_regByte h2
        exact .inl ⟨_, .compares r q rfl, by simp only [exec, execCmp, regIndex_regByte]; rfl⟩
      · exact .inr ⟨_, .inl ⟨b, by simp [Instr.regOperands, Instr.operands], by omega, rfl⟩,
          by simp only [exec, execCmp, regIndex_ok h1, regIndex_error (Nat.le_of_not_lt h2)]; rfl⟩
    · exact .inr ⟨_, .inl ⟨a, by simp [Instr.regOperands, Instr.operands], by omega, rfl⟩,
        by simp only [exec, execCmp, regIndex_error (Nat.le_of_not_lt h1)]; rfl⟩
  | and a b => exact alu2_total_ends (i := .and a b) _ s rfl rfl trivial
  | or a b => exact alu2_total_ends (i := .or a b) _ s rfl rfl trivial
  | xor a b => exact alu2_total_ends (i := .xor a b) _ s rfl rfl trivial
  | not a => exact alu1_ends (i := .not a) _ s rfl rfl trivial
  | shl a b => exact alu2_total_ends (i := .shl a b) _ s rfl rfl trivial
  | shr a b => exact alu2_total_ends (i := .shr a b) _ s rfl rfl trivial

/-- CMP's flag byte is one of three, by the order of the operands (`44_alu_compare_logic_shift.md` R84). -/
theorem compareFlags_eq (va vb : Byte) :
    compareFlags va vb = if va.toNat = vb.toNat then 1 else if vb.toNat < va.toNat then 2 else 4 := by
  unfold compareFlags
  rcases Nat.lt_trichotomy va.toNat vb.toNat with h | h | h
  · have h1 : ¬ va.toNat = vb.toNat := by omega
    have h2 : ¬ vb.toNat < va.toNat := by omega
    simp only [h, h1, h2, decide_true, decide_false, if_false, beq_eq_false_iff_ne.2 h1]; decide
  · simp only [h, beq_self_eq_true, lt_self_iff_false, decide_false, if_true]; decide
  · have h1 : ¬ va.toNat = vb.toNat := by omega
    have h2 : ¬ va.toNat < vb.toNat := by omega
    simp only [h, h1, h2, decide_true, decide_false, if_false, if_true, beq_eq_false_iff_ne.2 h1]; decide

end Sys2Proof.Machine
end

