-- ==== Sys2Proof/Laws/Complete.lean ====
section
/-! SUPPORT. Where an instruction completes and what the shared frames then leave, for the statements about results. -/
namespace Sys2Proof.Machine

/-- What a handler raises it raises only where the instruction does not complete. -/
theorem not_completes_of_raises {i : Instr} {s : State} {c : Cause} (h : Raises i s c) : ¬ Completes i s := by
  rintro ⟨hw, ho⟩
  rcases h with ⟨o, h, h8, -⟩ | ⟨-, a, b, rfl | rfl, h⟩ | ⟨-, ⟨a, rfl⟩, h⟩ | ⟨-, ⟨a, rfl⟩, h⟩
  · have : o.toNat < 8 := hw o h
    omega
  · exact ho b (by simp) h
  · exact ho b (by simp) h
  · simp only [OwnCheckPasses] at ho; omega
  · exact ho h

/-- An effect happens only where the instruction completes. -/
theorem completes_of_effect {i : Instr} {s s' : State} (h : Effect i s s') : Completes i s := by
  cases h with
  | writes a v h hc => exact hc
  | pops a h h7 | pushes a h h7 =>
    subst h
    exact ⟨by simp [WellFormed, Instr.regOperands, Instr.operands, NamesRegister], h7⟩
  | _ =>
    subst_vars
    exact ⟨by simp [WellFormed, Instr.regOperands, Instr.operands, NamesRegister], trivial⟩

/-- An instruction over `alu2` whose function answers: its result, and that nothing else changes. -/
theorem alu2_next {i : Instr} {f : Byte → Byte → Except Cause Int} {s : State} {a b : Fin 8} {r : Int}
    (hi : exec i s = complete i.opcode s (alu2 f (regByte a) (regByte b) s)) (hf : f (s.reg a) (s.reg b) = .ok r)
    (hl : i.operands.length = 2) : ∃ t, exec i s = .next t ∧ t.reg a = narrow r ∧ WritesOnly s t a 3 := by
  refine ⟨_, by rw [hi, alu2_ok hf]; exact rfl, ?_⟩
  rw [advance_opcode, hl]
  refine ⟨by simp, ?_⟩
  simp [WritesOnly, State.setPc, State.setReg, State.reg]

/-- An instruction over `alu1`: its result, and that nothing else changes. -/
theorem alu1_next {i : Instr} {g : Byte → Int} {s : State} {a : Fin 8}
    (hi : exec i s = complete i.opcode s (alu1 g (regByte a) s)) (hl : i.operands.length = 1) :
    ∃ t, exec i s = .next t ∧ t.reg a = narrow (g (s.reg a)) ∧ WritesOnly s t a 2 := by
  refine ⟨_, by rw [hi, alu1_ok]; exact rfl, ?_⟩
  rw [advance_opcode, hl]
  refine ⟨by simp, ?_⟩
  simp [WritesOnly, State.setPc, State.setReg, State.reg]

/-- PUSH with room. -/
theorem exec_push_ok {s : State} (a : Fin 8) (h : s.reg 7 ≠ 0) :
    exec (.push (regByte a)) s = .next (((s.setReg 7 ((s.reg 7).toNat - 1)).setMem (pushAddress s)
      ((s.setReg 7 ((s.reg 7).toNat - 1)).reg a)).setPc (s.pc + 2)) := by
  simp only [exec, execPush, pushHandler_ok h, complete_ok]
  rw [show Config.opc .push = (Instr.push 0).opcode from rfl, advance_opcode]; rfl

/-- POP below the marker. -/
theorem exec_pop_ok {s : State} (a : Fin 8) (h : (s.reg 7).toNat < 0xF4) :
    exec (.pop (regByte a)) s = .next (((s.setReg a (s.mem.get (s.reg 7).toNat).toNat).setReg 7
      (((s.setReg a (s.mem.get (s.reg 7).toNat).toNat).reg 7).toNat + 1)).setPc (s.pc + 2)) := by
  simp only [exec, execPop, popHandler_ok h, complete_ok]
  rw [show Config.opc .pop = (Instr.pop 0).opcode from rfl, advance_opcode]; rfl

end Sys2Proof.Machine
end

