-- ==== Sys2Proof/Laws/Decode.lean ====
section
/-! SUPPORT. What the dispatch table, the operand fetch and the decoder can answer. -/
namespace Sys2Proof

/-- The table finds each mnemonic under its own byte. -/
@[simp] theorem ofByte?_opc (m : Mnemonic) : Mnemonic.ofByte? (Config.opc m) = some m := by
  cases m <;> decide

/-- A byte found in the table is that mnemonic's byte. -/
theorem eq_opc_of_ofByte? {b : Byte} {m : Mnemonic} (h : Mnemonic.ofByte? b = some m) : b = Config.opc m := by
  have := List.find?_some h
  exact (beq_iff_eq.1 this).symm

/-- Every mnemonic is in the list of all. -/
theorem Mnemonic.mem_all (m : Mnemonic) : m ∈ Mnemonic.all := by
  cases m <;> decide

/-- A byte is not found exactly when it is no mnemonic's byte (`30_encoding.md` R55). -/
theorem ofByte?_none_iff {b : Byte} : Mnemonic.ofByte? b = none ↔ ∀ m, Config.opc m ≠ b := by
  simp only [Mnemonic.ofByte?, List.find?_eq_none]
  exact ⟨fun h m e => h m m.mem_all (by simp [e]), fun h m _ => by simpa using h m⟩

/-- A count is at most 3. -/
theorem decodeByte_operandCount_lt (b : Byte) : (decodeByte b).operandCount < 4 := by
  simpa [decodeByte] using (b.extractLsb' 6 2).isLt

/-- Building the instruction of an instruction's own mnemonic and operands gives it back. -/
theorem build_mnemonic (i : Instr) (o1 o2 : Byte) (h : i.operands = [o1, o2].take i.operands.length) :
    i.mnemonic.build o1 o2 = i := by
  cases i <;> simp_all [Instr.mnemonic, Mnemonic.build, Instr.operands]

variable {ε : Type} (read : Nat → Except ε Byte)

/-- The operand fetch with both reads good. -/
theorem operandBytes_ok {o1 o2 : Byte} (n : Nat) (h1 : read 1 = .ok o1) (h2 : read 2 = .ok o2) :
    operandBytes read n = .ok (if n = 0 then (0, 0) else if n = 1 then (o1, 0) else (o1, o2)) := by
  simp only [operandBytes, h1, h2]
  split <;> [rfl; split] <;> rfl

/-- No opcode byte, no instruction. -/
theorem decodeFrom_noOpcode {e : ε} (h : read 0 = .error e) : decodeFrom read = .error (.noOpcode e) := by
  simp only [decodeFrom, h]

/-- All that decoding can answer after the opcode byte is read. -/
theorem decodeFrom_cases {ir : Byte} (h : read 0 = .ok ir) :
    (∃ e, operandBytes read (decodeByte ir).operandCount = .error e ∧ decodeFrom read = .error (.noOperand ir e)) ∨
    (∃ o1 o2, operandBytes read (decodeByte ir).operandCount = .ok (o1, o2) ∧
      ((Mnemonic.ofByte? ir = none ∧ decodeFrom read = .error (.unsupported ir)) ∨
        (∃ m, ir = Config.opc m ∧ decodeFrom read = .ok (m.build o1 o2)))) := by
  simp only [decodeFrom, h]
  cases ho : operandBytes read (decodeByte ir).operandCount with
  | error e => exact .inl ⟨e, rfl, rfl⟩
  | ok p =>
    obtain ⟨o1, o2⟩ := p
    refine .inr ⟨o1, o2, rfl, ?_⟩
    cases hm : Mnemonic.ofByte? ir with
    | none => exact .inl ⟨rfl, rfl⟩
    | some m => exact .inr ⟨m, eq_opc_of_ofByte? hm, rfl⟩

/-- Decoding looks at no byte beyond the second operand. -/
theorem decodeFrom_congr {read read' : Nat → Except ε Byte} (h : ∀ k < 3, read k = read' k) :
    decodeFrom read = decodeFrom read' := by
  simp only [decodeFrom, operandBytes, h 0 (by decide), h 1 (by decide), h 2 (by decide)]

end Sys2Proof
end

