-- ==== Sys2Proof/Laws/PerInstr.lean ====
section
/-! SUPPORT. The family Encoding: what every instruction's bytes are, one lemma per constructor. -/
namespace Sys2Proof.Laws.Encoding

/-- The instruction is encoded as its mnemonic's opcode byte and its operand bytes, as many as bits 7-6 of that byte say,
and the mnemonic with those operands is the instruction (`30_encoding.md` R45, R53, R54). -/
def Statement (i : Instr) : Prop :=
  ∃ o1 o2 : Byte, i.mnemonic.build o1 o2 = i ∧
    encode i = Config.opc i.mnemonic :: [o1, o2].take (decodeByte (Config.opc i.mnemonic)).operandCount

theorem hlt : Statement .hlt :=
  ⟨0, 0, rfl, by simp only [Instr.mnemonic, show (decodeByte (Config.opc .hlt)).operandCount = 0 by decide]; rfl⟩

theorem ldi (a imm : Byte) : Statement (.ldi a imm) :=
  ⟨a, imm, rfl, by simp only [Instr.mnemonic, show (decodeByte (Config.opc .ldi)).operandCount = 2 by decide]; rfl⟩

theorem prn (a : Byte) : Statement (.prn a) :=
  ⟨a, 0, rfl, by simp only [Instr.mnemonic, show (decodeByte (Config.opc .prn)).operandCount = 1 by decide]; rfl⟩

theorem push (a : Byte) : Statement (.push a) :=
  ⟨a, 0, rfl, by simp only [Instr.mnemonic, show (decodeByte (Config.opc .push)).operandCount = 1 by decide]; rfl⟩

theorem pop (a : Byte) : Statement (.pop a) :=
  ⟨a, 0, rfl, by simp only [Instr.mnemonic, show (decodeByte (Config.opc .pop)).operandCount = 1 by decide]; rfl⟩

theorem add (a b : Byte) : Statement (.add a b) :=
  ⟨a, b, rfl, by simp only [Instr.mnemonic, show (decodeByte (Config.opc .add)).operandCount = 2 by decide]; rfl⟩

theorem sub (a b : Byte) : Statement (.sub a b) :=
  ⟨a, b, rfl, by simp only [Instr.mnemonic, show (decodeByte (Config.opc .sub)).operandCount = 2 by decide]; rfl⟩

theorem mul (a b : Byte) : Statement (.mul a b) :=
  ⟨a, b, rfl, by simp only [Instr.mnemonic, show (decodeByte (Config.opc .mul)).operandCount = 2 by decide]; rfl⟩

theorem div (a b : Byte) : Statement (.div a b) :=
  ⟨a, b, rfl, by simp only [Instr.mnemonic, show (decodeByte (Config.opc .div)).operandCount = 2 by decide]; rfl⟩

theorem mod (a b : Byte) : Statement (.mod a b) :=
  ⟨a, b, rfl, by simp only [Instr.mnemonic, show (decodeByte (Config.opc .mod)).operandCount = 2 by decide]; rfl⟩

theorem inc (a : Byte) : Statement (.inc a) :=
  ⟨a, 0, rfl, by simp only [Instr.mnemonic, show (decodeByte (Config.opc .inc)).operandCount = 1 by decide]; rfl⟩

theorem dec (a : Byte) : Statement (.dec a) :=
  ⟨a, 0, rfl, by simp only [Instr.mnemonic, show (decodeByte (Config.opc .dec)).operandCount = 1 by decide]; rfl⟩

theorem cmp (a b : Byte) : Statement (.cmp a b) :=
  ⟨a, b, rfl, by simp only [Instr.mnemonic, show (decodeByte (Config.opc .cmp)).operandCount = 2 by decide]; rfl⟩

theorem and (a b : Byte) : Statement (.and a b) :=
  ⟨a, b, rfl, by simp only [Instr.mnemonic, show (decodeByte (Config.opc .and)).operandCount = 2 by decide]; rfl⟩

theorem or (a b : Byte) : Statement (.or a b) :=
  ⟨a, b, rfl, by simp only [Instr.mnemonic, show (decodeByte (Config.opc .or)).operandCount = 2 by decide]; rfl⟩

theorem xor (a b : Byte) : Statement (.xor a b) :=
  ⟨a, b, rfl, by simp only [Instr.mnemonic, show (decodeByte (Config.opc .xor)).operandCount = 2 by decide]; rfl⟩

theorem not (a : Byte) : Statement (.not a) :=
  ⟨a, 0, rfl, by simp only [Instr.mnemonic, show (decodeByte (Config.opc .not)).operandCount = 1 by decide]; rfl⟩

theorem shl (a b : Byte) : Statement (.shl a b) :=
  ⟨a, b, rfl, by simp only [Instr.mnemonic, show (decodeByte (Config.opc .shl)).operandCount = 2 by decide]; rfl⟩

theorem shr (a b : Byte) : Statement (.shr a b) :=
  ⟨a, b, rfl, by simp only [Instr.mnemonic, show (decodeByte (Config.opc .shr)).operandCount = 2 by decide]; rfl⟩

end Sys2Proof.Laws.Encoding
end

