-- ==== Sys2Proof/Laws/Step.lean ====
section
/-! SUPPORT. All that fetching and stepping can do, said once. -/
namespace Sys2Proof.Machine

/-- Outside memory there is no opcode byte (`40_run_loop.md` R61). -/
theorem fetchInstr_noOpcode {s : State} (h : 256 ≤ s.pc) :
    fetchInstr s = .error (none, .addressOutOfRange .mem s.pc) := by
  have : codeRead s 0 = .error (.addressOutOfRange .mem s.pc) := memRead_error s h
  simp only [fetchInstr, decodeFrom_noOpcode _ this]

/-- The operand fetch over memory: it fails at address 256 only, and only where the count calls for that byte
(`40_run_loop.md` R63, `60_exceptions.md` R92). -/
theorem operandBytes_codeRead {s : State} (h : s.pc < 256) (n : Nat) :
    operandBytes (codeRead s) n =
      if (n ≠ 0 ∧ s.pc = 255) ∨ (2 ≤ n ∧ s.pc = 254) then .error (.addressOutOfRange .mem 256)
      else .ok (if n = 0 then (0, 0) else if n = 1 then (s.mem.get (s.pc + 1), 0)
        else (s.mem.get (s.pc + 1), s.mem.get (s.pc + 2))) := by
  simp only [operandBytes, codeRead]
  by_cases h0 : n = 0
  · simp [h0]
  by_cases h5 : s.pc = 255
  · simp [h0, h5, memRead]
  rw [memRead_ok s (show s.pc + 1 < 256 by omega)]
  by_cases h1 : n = 1
  · simp [h1, h5]
  have h2 : 2 ≤ n := by omega
  by_cases h4 : s.pc = 254
  · simp [h0, h1, h2, h4, memRead]
  rw [memRead_ok s (show s.pc + 2 < 256 by omega)]
  simp [h0, h1, h4, h5]

/-- All that fetching an instruction can answer, with the byte at `pc` read. -/
theorem fetchInstr_cases {s : State} (h : s.pc < 256) :
    (((decodeByte (s.mem.get s.pc)).operandCount ≠ 0 ∧ s.pc = 255 ∨
        2 ≤ (decodeByte (s.mem.get s.pc)).operandCount ∧ s.pc = 254) ∧
      fetchInstr s = .error (some (s.mem.get s.pc), .addressOutOfRange .mem 256)) ∨
    (¬ ((decodeByte (s.mem.get s.pc)).operandCount ≠ 0 ∧ s.pc = 255 ∨
        2 ≤ (decodeByte (s.mem.get s.pc)).operandCount ∧ s.pc = 254) ∧ Mnemonic.ofByte? (s.mem.get s.pc) = none ∧
      fetchInstr s = .error (some (s.mem.get s.pc), .unsupportedOperation (s.mem.get s.pc))) ∨
    (∃ i, s.mem.get s.pc = i.opcode ∧ s.pc + i.operands.length < 256 ∧ fetchInstr s = .ok i) := by
  have h0 : codeRead s 0 = .ok (s.mem.get s.pc) := memRead_ok s h
  have ho := operandBytes_codeRead h (decodeByte (s.mem.get s.pc)).operandCount
  rcases decodeFrom_cases _ h0 with ⟨e, he, hd⟩ | ⟨o1, o2, hb, ⟨hm, hd⟩ | ⟨m, hm, hd⟩⟩
  · rw [he] at ho
    split at ho
    · cases ho
      exact .inl ⟨‹_›, by simp only [fetchInstr, hd]⟩
    · cases ho
  · refine .inr (.inl ⟨fun hc => ?_, hm, by simp only [fetchInstr, hd]⟩)
    rw [hb, if_pos hc] at ho; cases ho
  · refine .inr (.inr ⟨m.build o1 o2, ?_, ?_, by simp only [fetchInstr, hd]⟩)
    · rw [hm]; cases m <;> rfl
    · rw [hb] at ho
      have hl : (m.build o1 o2).operands.length = (decodeByte (s.mem.get s.pc)).operandCount := by
        rw [hm, ← opcode_operandCount]; cases m <;> rfl
      have := decodeByte_operandCount_lt (s.mem.get s.pc)
      split at ho
      · cases ho
      · have h2 : (m.build o1 o2).operands.length ≤ 2 := by cases m <;> simp [Mnemonic.build, Instr.operands]
        omega

/-- A halted core steps to itself (`40_run_loop.md` R60). -/
theorem step_of_halted {s : State} (h : s.run = .halted) : step s = .next s := by simp only [step, h]

/-- A running core executes the instruction it fetched. -/
theorem step_of_fetch {s : State} {i : Instr} (h : s.run = .running) (hf : fetchInstr s = .ok i) :
    step s = exec i s := by simp only [step, h, hf]

/-- A running core enters the fault that its fetch raised. -/
theorem step_of_fetch_error {s : State} {p : Option Byte × Cause} (h : s.run = .running)
    (hf : fetchInstr s = .error p) : step s = .next (faultEntry p.1 p.2 s) := by simp only [step, h, hf]

/-- All that a step can do (`40_run_loop.md` R67): nothing while Halted; a fault of the fetch or the dispatch; or the
execution of the instruction whose opcode byte stands at `pc`. -/
theorem step_cases (s : State) :
    (s.run = .halted ∧ step s = .next s) ∨
    (s.run = .running ∧ 256 ≤ s.pc ∧ step s = .next (faultEntry none (.addressOutOfRange .mem s.pc) s)) ∨
    (s.run = .running ∧ s.pc < 256 ∧
      ((((decodeByte (s.mem.get s.pc)).operandCount ≠ 0 ∧ s.pc = 255 ∨
          2 ≤ (decodeByte (s.mem.get s.pc)).operandCount ∧ s.pc = 254) ∧
        step s = .next (faultEntry (some (s.mem.get s.pc)) (.addressOutOfRange .mem 256) s)) ∨
      (¬ ((decodeByte (s.mem.get s.pc)).operandCount ≠ 0 ∧ s.pc = 255 ∨
          2 ≤ (decodeByte (s.mem.get s.pc)).operandCount ∧ s.pc = 254) ∧ Mnemonic.ofByte? (s.mem.get s.pc) = none ∧
        step s = .next (faultEntry (some (s.mem.get s.pc)) (.unsupportedOperation (s.mem.get s.pc)) s)) ∨
      (∃ i, s.mem.get s.pc = i.opcode ∧ s.pc + i.operands.length < 256 ∧ fetchInstr s = .ok i ∧
        step s = exec i s))) := by
  cases hr : s.run with
  | halted => exact .inl ⟨rfl, step_of_halted hr⟩
  | running =>
    by_cases h : s.pc < 256
    · refine .inr (.inr ⟨rfl, h, ?_⟩)
      rcases fetchInstr_cases h with ⟨hc, hf⟩ | ⟨hn, hm, hf⟩ | ⟨i, hi, hl, hf⟩
      · exact .inl ⟨hc, step_of_fetch_error hr hf⟩
      · exact .inr (.inl ⟨hn, hm, step_of_fetch_error hr hf⟩)
      · exact .inr (.inr ⟨i, hi, hl, hf, step_of_fetch hr hf⟩)
    · exact .inr (.inl ⟨rfl, by omega, step_of_fetch_error hr (fetchInstr_noOpcode (by omega))⟩)

end Sys2Proof.Machine
end

