-- ==== Sys2Proof/Laws/Transport.lean ====
section
/-! SUPPORT. Executing an instruction commutes with any change of the state that the instruction neither reads nor writes:
the one argument behind every statement that a field is not read. -/
namespace Sys2Proof.Machine

/-- `complete` commutes with `F` where the handler, the advance and the fault entry do. -/
theorem complete_map {ir : Byte} {s t : State} {F : State → State} {x y : Except Cause State} (hx : y = x.map F)
    (ha : ∀ s, advance ir (F s) = F (advance ir s)) (hf : ∀ o c, faultEntry o c (F s) = F (faultEntry o c s))
    (h : complete ir s x = .next t) : complete ir (F s) y = .next (F t) := by
  subst hx
  cases x with
  | ok s' => simp only [complete_ok, Host.Outcome.next.injEq] at h; subst h; simp [Except.map, ha]
  | error c => simp only [complete_error, Host.Outcome.next.injEq] at h; subst h; simp [Except.map, hf]

/-- The advance reads and writes `pc` only. -/
theorem advance_map (ir : Byte) {F : State → State} (h : ∀ s n, (F s).setPc n = F (s.setPc n))
    (hp : ∀ s, (F s).pc = s.pc) (s : State) : advance ir (F s) = F (advance ir s) := by
  unfold advance; split <;> simp [h, hp]

/-- The two-operand frame reads and writes registers only. -/
theorem alu2_map (f : Byte → Byte → Except Cause Int) (a b : Byte) (s : State) {F : State → State}
    (hr : ∀ i, (F s).reg i = s.reg i) (hs : ∀ i v, (F s).setReg i v = F (s.setReg i v)) :
    alu2 f a b (F s) = (alu2 f a b s).map F := by
  simp only [alu2, hr]
  cases regIndex a <;> [rfl; skip]
  cases regIndex b <;> [rfl; skip]
  rename_i x y
  change (f (s.reg x) (s.reg y) >>= _) = Except.map F (f (s.reg x) (s.reg y) >>= _)
  cases f (s.reg x) (s.reg y) <;> [rfl; skip]
  simp only [hs]; rfl

/-- The one-operand frame reads and writes registers only. -/
theorem alu1_map (g : Byte → Int) (a : Byte) (s : State) {F : State → State} (hr : ∀ i, (F s).reg i = s.reg i)
    (hs : ∀ i v, (F s).setReg i v = F (s.setReg i v)) : alu1 g a (F s) = (alu1 g a s).map F := by
  simp only [alu1, hr]
  cases regIndex a <;> [rfl; skip]
  simp only [hs]; rfl

/-- A change `F` of fields other than registers, `pc`, `run` and `fault` passes through an instruction that does not use
those fields: `out` for all but PRN, `fl` for all but CMP, memory for all but PUSH and POP. -/
theorem exec_map (i : Instr) (s : State) (F : State → State)
    (hr : ∀ s i, (F s).reg i = s.reg i) (hs : ∀ s i v, (F s).setReg i v = F (s.setReg i v))
    (hp : ∀ s n, (F s).setPc n = F (s.setPc n)) (hpc : ∀ s, (F s).pc = s.pc)
    (hrun : ∀ s r, (F s).setRun r = F (s.setRun r)) (hf : ∀ o c, faultEntry o c (F s) = F (faultEntry o c s))
    (hemit : (∃ o, i = .prn o) → ∀ v, (F s).emit v = F (s.emit v))
    (hcmp : (∃ o p, i = .cmp o p) → ∀ v, (F s).setFl v = F (s.setFl v))
    (hpush : (∃ o, i = .push o) → ∀ s a v, (F s).setMem a v = F (s.setMem a v))
    (hpop : (∃ o, i = .pop o) → ∀ a, (F s).mem.get a = s.mem.get a) {t : State} (h : exec i s = .next t) :
    exec i (F s) = .next (F t) := by
  have ha := fun ir => advance_map ir hp hpc
  have h2 := fun f a b => alu2_map f a b s (hr s) (hs s)
  have h1 := fun g a => alu1_map g a s (hr s) (hs s)
  cases i <;>
    simp only [exec, execHlt, execLdi, execPrn, execPush, execPop, execAdd, execSub, execMul, execDiv, execMod, execInc,
      execDec, execCmp, execAnd, execOr, execXor, execNot, execShl, execShr] at h ⊢
  case hlt => exact complete_map (by simp [hrun, Except.map]) (ha _) hf h
  case ldi a imm => exact complete_map (by cases regIndex a <;> [rfl; (simp only [hs]; rfl)]) (ha _) hf h
  case prn a =>
    have he := hemit ⟨_, rfl⟩
    exact complete_map (by cases regIndex a <;> [rfl; (simp only [hr, he]; rfl)]) (ha _) hf h
  case push a =>
    have hm := hpush ⟨_, rfl⟩
    have hps : pushAddress (F s) = pushAddress s := by simp [pushAddress, hs, hr]
    refine complete_map ?_ (ha _) hf h
    rcases pushHandler_cases a s with ⟨h, e⟩ | ⟨r, rfl, ⟨h, e⟩ | ⟨h, e⟩⟩ <;> rw [e]
    · rw [pushHandler_bad _ h]; rfl
    · rw [pushHandler_overflow (by rw [hr, h])]; rfl
    · rw [pushHandler_ok (by rw [hr]; exact h)]; simp [hr, hs, hps, hm, Except.map]
  case pop a =>
    have hg := hpop ⟨_, rfl⟩
    refine complete_map ?_ (ha _) hf h
    rcases popHandler_cases a s with ⟨h, e⟩ | ⟨r, rfl, ⟨h, e⟩ | ⟨h, e⟩⟩ <;> rw [e]
    · rw [popHandler_bad _ h]; rfl
    · rw [popHandler_underflow (by rw [hr]; exact h)]; rfl
    · rw [popHandler_ok (by rw [hr]; exact h)]; simp [hr, hs, hg, Except.map]
  case cmp a b =>
    have hc := hcmp ⟨_, _, rfl⟩
    exact complete_map (by
      cases regIndex a <;> [rfl; (cases regIndex b <;> [rfl; (simp only [hr, hc]; rfl)])]) (ha _) hf h
  case inc a => exact complete_map (h1 _ _) (ha _) hf h
  case dec a => exact complete_map (h1 _ _) (ha _) hf h
  case not a => exact complete_map (h1 _ _) (ha _) hf h
  all_goals exact complete_map (h2 _ _ _) (ha _) hf h

end Sys2Proof.Machine
end

