-- ==== Sys2Proof/Tests/Slice0.lean ====
section
/-! SUPPORT. The model's own tests. Expected results are those of `spec/95_test_vectors.md`, whose vector each comment names,
or are worked by hand from the rule named. After them, a witness for the hypotheses of each statement of
Certificates/Slice0/Obligations.lean that has any. -/
namespace Sys2Proof.Tests
open Sys2Proof.Machine

/-! ## Well-formedness: an ill-formed term for each check (`30_encoding.md` R51, R52) -/

theorem test_wf_first_of_one : ¬ WellFormed (.prn 8) ∧ WellFormed (.prn 7) := by decide
theorem test_wf_stack : ¬ WellFormed (.push 8) ∧ ¬ WellFormed (.pop 0xFF) := by decide
theorem test_wf_first_of_two : ¬ WellFormed (.add 8 0) ∧ WellFormed (.add 7 7) := by decide
theorem test_wf_second_of_two : ¬ WellFormed (.shr 0 8) ∧ ¬ WellFormed (.cmp 0 0x80) := by decide
theorem test_wf_ldi : ¬ WellFormed (.ldi 8 0) ∧ WellFormed (.ldi 7 0xFF) := by decide
theorem test_wf_hlt : WellFormed .hlt := by decide

/-! ## Decoding: a word written out from the opcode map, `30_encoding.md` R45 and R53, for each constructor -/

/-- What a list of bytes decodes to, forgetting why not. -/
def decoded (bytes : List Byte) : Option Instr :=
  match decode bytes with
  | .ok i => some i
  | .error _ => none

theorem test_decode_hlt : decoded [0b00000001] = some .hlt := by decide
theorem test_decode_ldi : decoded [0b10000010, 0x03, 0xFF] = some (.ldi 3 255) := by decide
theorem test_decode_prn : decoded [0b01000111, 0x05] = some (.prn 5) := by decide
theorem test_decode_push : decoded [0b01000101, 0x07] = some (.push 7) := by decide
theorem test_decode_pop : decoded [0b01000110, 0x02] = some (.pop 2) := by decide
theorem test_decode_add : decoded [0b10100000, 0x00, 0x01] = some (.add 0 1) := by decide
theorem test_decode_sub : decoded [0b10100001, 0x01, 0x02] = some (.sub 1 2) := by decide
theorem test_decode_mul : decoded [0b10100010, 0x02, 0x03] = some (.mul 2 3) := by decide
theorem test_decode_div : decoded [0b10100011, 0x03, 0x04] = some (.div 3 4) := by decide
theorem test_decode_mod : decoded [0b10100100, 0x04, 0x05] = some (.mod 4 5) := by decide
theorem test_decode_inc : decoded [0b01100101, 0x06] = some (.inc 6) := by decide
theorem test_decode_dec : decoded [0b01100110, 0x01] = some (.dec 1) := by decide
theorem test_decode_cmp : decoded [0b10100111, 0x07, 0x00] = some (.cmp 7 0) := by decide
theorem test_decode_and : decoded [0b10101000, 0x00, 0x01] = some (.and 0 1) := by decide
theorem test_decode_or : decoded [0b10101010, 0x01, 0x02] = some (.or 1 2) := by decide
theorem test_decode_xor : decoded [0b10101011, 0x02, 0x00] = some (.xor 2 0) := by decide
theorem test_decode_not : decoded [0b01101001, 0x00] = some (.not 0) := by decide
theorem test_decode_shl : decoded [0b10101100, 0x02, 0x01] = some (.shl 2 1) := by decide
theorem test_decode_shr : decoded [0b10101101, 0x00, 0x01] = some (.shr 0 1) := by decide

/-- Bytes after the instruction are not looked at (`40_run_loop.md` R63). -/
theorem test_decode_rest : decoded [0x47, 0x00, 0x01] = some (.prn 0) := by decide

/-- 0x00, the jump class, an undefined byte of the ALU class, operand count 3 (E8, E9, E6, E7). -/
theorem test_decode_unsupported :
    [[0x00], [0x54, 0x00], [0xA9, 0, 1], [0x90, 0, 0], [0xC0, 0, 0]].map decode =
      [.error (.unsupported 0x00), .error (.unsupported 0x54), .error (.unsupported 0xA9), .error (.unsupported 0x90),
        .error (.unsupported 0xC0)] := by rfl

/-- A missing byte is reported before the opcode is judged (E1 to E5, on a list). -/
theorem test_decode_truncated :
    [[], [0x47], [0x82, 0x00], [0x82], [0x90, 0x00]].map decode =
      [.error (.noOpcode 0), .error (.noOperand 0x47 1), .error (.noOperand 0x82 2), .error (.noOperand 0x82 1),
        .error (.noOperand 0x90 2)] := by rfl

/-- The opcode table's numbering: the first byte is bits 7..0. -/
theorem test_table_word :
    decodeTableWord 24 0x080082 = some (.ldi 0 8) ∧ decodeTableWord 8 0x82 = some (.ldi 0 0) ∧
      decodeTableWord 16 0x0347 = some (.prn 3) ∧ decodeTableWord 8 0x00 = none := by decide

/-- S1: the three decode examples of the source. -/
theorem test_decode_byte :
    decodeByte 0x82 = ⟨2, false, false, 2⟩ ∧ decodeByte 0x47 = ⟨1, false, false, 7⟩ ∧
      decodeByte 0x01 = ⟨0, false, false, 1⟩ ∧ decodeByte 0xFF = ⟨3, true, true, 15⟩ := by decide

theorem test_encode : encode (.ldi 0 8) = [0x82, 0x00, 0x08] ∧ encode (.shr 0 1) = [0xAD, 0x00, 0x01] := by decide

/-- Assembly text (`30_encoding.md` R57; S8). -/
theorem test_asm : Instr.asm .hlt = "HLT" ∧ Instr.asm (.add 0 1) = "ADD R0 R1" ∧
    Instr.asm (.ldi 0 8) = "LDI R0 8" := by decide

/-! ## One step each -/

/-- A Running core with three of its registers set. -/
def core (x0 x1 x7 : Byte) : State :=
  { State.reset with regs := #v[x0, x1, 0, 0, 0, 0, 0, x7], run := .running }

/-- The state after one step with these bytes at `pc` (a step always has a next state). -/
def after (bytes : List Byte) (s : State) : State :=
  match step (s.placeBytes s.pc bytes) with
  | .next t => t
  | .fault _ | .refused _ => s

/-- Registers 0 and 1 and the `pc` after one ALU instruction. -/
def alu (bytes : List Byte) (x0 x1 : Byte) : Byte × Byte × Nat :=
  let t := after bytes (core x0 x1 0xF4)
  (t.reg 0, t.reg 1, t.pc)

/-- The fault record after one step, with what the fault must leave alone: the step's `pc` and register 0. -/
def faulted (bytes : List Byte) (s : State) : Option FaultRecord × RunState × Nat × Byte :=
  let t := after bytes s
  (t.fault, t.run, t.pc, t.reg 0)

/-- P1 step 3, `40_run_loop.md` R69. -/
theorem test_hlt : (after [0x01] (core 0 0 0xF4)).run = .halted ∧ (after [0x01] (core 0 0 0xF4)).pc = 1 ∧
    (after [0x01] (core 0 0 0xF4)).fault = none := by decide

/-- S2: LDI writes any register, 7 among them. -/
theorem test_ldi : (after [0x82, 0x03, 0xFF] (core 0 0 0xF4)).reg 3 = 0xFF ∧
    (after [0x82, 0x07, 0x00] (core 0 0 0xF4)).reg 7 = 0 ∧ (after [0x82, 0x07, 0x00] (core 0 0 0xF4)).pc = 3 := by decide

/-- A register byte is not masked: 0x0B is not register 3 (`30_encoding.md` R51). -/
theorem test_ldi_bad_register : faulted [0x82, 0x0B, 0x05] (core 1 0 0xF4) =
    (some ⟨.addressOutOfRange, 1, 0, some 0x82, .address .reg 11⟩, .halted, 0, 1) := by decide

/-- `41_load_print.md` R71: appended after the older values; the register is kept. -/
theorem test_prn : (after [0x47, 0x00] { core 200 0 0xF4 with out := [8] }).out = [8, 200] ∧
    (after [0x47, 0x00] (core 200 0 0xF4)).reg 0 = 200 ∧ (after [0x47, 0x00] (core 200 0 0xF4)).pc = 2 := by decide

/-- ST7: the value stored is SP after the decrement. -/
theorem test_push_sp : (after [0x45, 0x07] (core 0 0 0xF4)).reg 7 = 0xF3 ∧
    (after [0x45, 0x07] (core 0 0 0xF4)).mem.get 0xF3 = 0xF3 := by decide

/-- ST6 and ST5: the last legal push overwrites address 0; the next one faults and does not wrap. -/
theorem test_push_last : (after [0x45, 0x00] (core 9 0 1)).reg 7 = 0 ∧ (after [0x45, 0x00] (core 9 0 1)).mem.get 0 = 9 ∧
    faulted [0x45, 0x00] (core 9 0 0) = (some ⟨.stackOverflow, 5, 0, some 0x45, .nothing⟩, .halted, 0, 9) ∧
    (after [0x45, 0x00] (core 9 0 0)).mem.get 0xFF = 0 := by decide

/-- ST8: POP R7 loads, then increments what it loaded. -/
theorem test_pop_sp : (after [0x46, 0x07] ((core 0 0 0xF3).setMem 0xF3 0x7F)).reg 7 = 0x80 := by decide

/-- ST4 (above the marker), ST10 (the register check comes first). -/
theorem test_pop_faults :
    faulted [0x46, 0x00] (core 3 0 0xF5) = (some ⟨.stackUnderflow, 4, 0, some 0x46, .nothing⟩, .halted, 0, 3) ∧
    faulted [0x46, 0x08] (core 3 0 0xF4) =
      (some ⟨.addressOutOfRange, 1, 0, some 0x46, .address .reg 8⟩, .halted, 0, 3) := by decide

/-- AR1, AR2. -/
theorem test_add : alu [0xA0, 0, 1] 200 100 = (44, 100, 3) ∧ alu [0xA0, 0, 1] 255 1 = (0, 1, 3) := by decide

/-- AR4, and the same register twice. -/
theorem test_sub : alu [0xA1, 0, 1] 5 10 = (251, 10, 3) ∧ alu [0xA1, 0, 0] 5 10 = (0, 10, 3) := by decide

/-- AR7, AR8. -/
theorem test_mul : alu [0xA2, 0, 1] 16 16 = (0, 16, 3) ∧ alu [0xA2, 0, 1] 255 255 = (1, 255, 3) := by decide

/-- AR11, and E10: the register check comes before the divisor's. -/
theorem test_div : alu [0xA3, 0, 1] 255 16 = (15, 16, 3) ∧ faulted [0xA3, 9, 1] (core 10 0 0xF4) =
    (some ⟨.addressOutOfRange, 1, 0, some 0xA3, .address .reg 9⟩, .halted, 0, 10) := by decide

/-- AR13. -/
theorem test_div_zero : faulted [0xA3, 0, 1] (core 10 0 0xF4) =
    (some ⟨.divisionByZero, 3, 0, some 0xA3, .nothing⟩, .halted, 0, 10) := by decide

/-- AR16, AR17. -/
theorem test_mod : alu [0xA4, 0, 1] 200 3 = (2, 3, 3) ∧ faulted [0xA4, 0, 1] (core 9 0 0xF4) =
    (some ⟨.divisionByZero, 3, 0, some 0xA4, .nothing⟩, .halted, 0, 9) := by decide

/-- AR19, AR22. -/
theorem test_inc : alu [0x65, 0] 255 0 = (0, 0, 2) ∧ (after [0x65, 7] (core 0 0 0xF4)).reg 7 = 0xF5 := by decide

/-- AR20, AR21. -/
theorem test_dec : alu [0x66, 0] 1 0 = (0, 0, 2) ∧ alu [0x66, 0] 0 0 = (255, 0, 2) := by decide

/-- CM1, CM2, CM3. -/
theorem test_cmp : (after [0xA7, 0, 1] (core 44 44 0xF4)).fl = 1 ∧
    (after [0xA7, 0, 1] { core 48 44 0xF4 with fl := 1 }).fl = 2 ∧
    (after [0xA7, 0, 1] { core 0 255 0xF4 with fl := 2 }).fl = 4 := by decide

/-- CM6: a faulting CMP does not write `fl`. -/
theorem test_cmp_faults : (after [0xA7, 0, 8] { core 1 2 0xF4 with fl := 4 }).fl = 4 ∧
    (after [0xA7, 0, 8] { core 1 2 0xF4 with fl := 4 }).pc = 0 := by decide

/-- LG1 to LG3. -/
theorem test_and_or_xor : alu [0xA8, 0, 1] 0xCC 0xAA = (0x88, 0xAA, 3) ∧ alu [0xAA, 0, 1] 0xCC 0xAA = (0xEE, 0xAA, 3) ∧
    alu [0xAB, 0, 1] 0xCC 0xAA = (0x66, 0xAA, 3) := by decide

/-- LG5. -/
theorem test_not : alu [0x69, 0] 0xAA 0 = (0x55, 0, 2) := by decide

/-- SH1, SH3. -/
theorem test_shl : alu [0xAC, 0, 1] 0x81 1 = (2, 1, 3) ∧ alu [0xAC, 0, 1] 0xFF 4 = (0xF0, 4, 3) := by decide

/-- SH6 (the count is not reduced modulo 8), SH11. -/
theorem test_shl_counts : alu [0xAC, 0, 1] 1 255 = (0, 255, 3) ∧ alu [0xAC, 0, 0] 3 0 = (0x18, 0, 3) := by decide

/-- SH7 (logical), SH10. -/
theorem test_shr : alu [0xAD, 0, 1] 0x81 1 = (0x40, 1, 3) ∧ alu [0xAD, 0, 1] 0xFF 8 = (0, 8, 3) := by decide

/-! ## Faults of the fetch and the dispatch, and the rest of the step -/

/-- A Running core at an address. -/
def coreAt (pc : Nat) : State := { core 0 0 0xF4 with pc := pc }

/-- E1 to E4. -/
theorem test_fetch_faults :
    faulted [] (coreAt 256) = (some ⟨.addressOutOfRange, 1, 256, none, .address .mem 256⟩, .halted, 256, 0) ∧
    faulted [0x47] (coreAt 255) = (some ⟨.addressOutOfRange, 1, 255, some 0x47, .address .mem 256⟩, .halted, 255, 0) ∧
    faulted [0x82, 0] (coreAt 254) = (some ⟨.addressOutOfRange, 1, 254, some 0x82, .address .mem 256⟩, .halted, 254, 0) ∧
    faulted [0x82] (coreAt 255) = (some ⟨.addressOutOfRange, 1, 255, some 0x82, .address .mem 256⟩, .halted, 255, 0) := by
  decide

/-- E5 to E8. -/
theorem test_dispatch_faults :
    faulted [0x90] (coreAt 254) = (some ⟨.addressOutOfRange, 1, 254, some 0x90, .address .mem 256⟩, .halted, 254, 0) ∧
    faulted [0x90] (coreAt 253) = (some ⟨.unsupportedOperation, 2, 253, some 0x90, .opcode 0x90⟩, .halted, 253, 0) ∧
    faulted [0xC0] (coreAt 253) = (some ⟨.unsupportedOperation, 2, 253, some 0xC0, .opcode 0xC0⟩, .halted, 253, 0) ∧
    faulted [0x00] (coreAt 0) = (some ⟨.unsupportedOperation, 2, 0, some 0x00, .opcode 0x00⟩, .halted, 0, 0) := by
  decide

/-- HLT in the last cell completes and leaves `pc` at 256 (`10_state.md` R15). -/
theorem test_hlt_last_cell : (after [0x01] (coreAt 255)).pc = 256 ∧ (after [0x01] (coreAt 255)).fault = none := by decide

/-- `40_run_loop.md` R60: a halted core does nothing, an instruction at `pc` or not. -/
theorem test_halted : after [0x01] State.reset = State.reset.placeBytes 0 [0x01] := by decide

/-- `withFetchWord` from reset: the very next step runs the word. -/
theorem test_with_fetch_word :
    (match step (State.reset.withFetchWord 24 0x080082) with
      | .next t => t.reg 0
      | _ => 0) = 8 := by decide

/-- Memory stays canonical: rising addresses, and writing 0 removes the entry (`10_state.md` R24). -/
theorem test_memory : (((State.reset.setMem 5 1).setMem 2 7).setMem 5 0).mem = [(2, 7)] ∧
    ((State.reset.setMem 5 1).setMem 2 7).mem = [(2, 7), (5, 1)] := by decide

/-- P1's launch: the six bytes are in memory and the core is Running (`10_state.md` R26). -/
theorem test_launch : (launch [(0, 0x82), (1, 0x00), (2, 0x08), (3, 0x47), (4, 0x00), (5, 0x01)]).run = .running ∧
    (launch [(0, 0x82), (0, 0x47)]).mem.get 0 = 0x47 := by decide

/-- `10_state.md` R28: at `pc` 255 only one byte of the snapshot exists. -/
theorem test_snapshot : (hostSnapshot (coreAt 255)).m0 = some 0 ∧ (hostSnapshot (coreAt 255)).m1 = none := by decide

/-! ## Witnesses: each statement's hypotheses are met by a concrete state and operands -/

/-- Registers are whatever the statement needs; a Running core meets the invariant. -/
theorem core_inv (x0 x1 x7 : Byte) : (core x0 x1 x7).Inv where
  pc_le := Nat.zero_le _
  mem_wf := ⟨List.Pairwise.nil, by simp [core, State.reset]⟩
  fl_legal := .inl rfl
  fault_halts h := absurd rfl h
  record_legal := by rintro r ⟨⟩

/-- StepKeepsInvariant: a Running core that meets the invariant, and its step answers a next state. -/
theorem witness_StepKeepsInvariant : (core 1 2 0xF4).Inv ∧ ∃ t, step (core 1 2 0xF4) = .next t :=
  ⟨core_inv 1 2 0xF4, _, rfl⟩

theorem witness_HaltedStepChangesNothing : State.reset.run = .halted := rfl

/-- PcMovesForwardOnly: an instruction that goes on to 256, HLT in the last cell, and a fault there. -/
theorem witness_PcMovesForwardOnly :
    (coreAt 254).run = .running ∧ (after [0x47, 0] (coreAt 254)).run = .running ∧
      ((coreAt 255).setMem 255 0x01).mem.get 255 = Config.opc .hlt ∧ (after [0x01] (coreAt 255)).run = .halted ∧
      (coreAt 255).mem.get 255 ≠ Config.opc .hlt ∧ (after [0x00] (coreAt 255)).run = .halted := by decide

/-- MemoryPrimitivesCheckAndStore: both clauses at the boundary, on a canonical memory that is not empty. -/
theorem witness_MemoryPrimitivesCheckAndStore :
    (255 : Nat) < 256 ∧ (State.reset.setMem 255 7).mem.wf ∧ 256 ≤ (256 : Nat) ∧
      (memRead 255 (State.reset.setMem 255 7)).toOption = some 7 ∧ (memRead 256 State.reset).toOption = none := by decide

theorem witness_EncodeOfDecode : decode [0x82, 0x00, 0x08, 0xFF] = .ok (.ldi 0 8) := rfl

/-- SetsPcBytesAreUnsupported: operand counts 0, 1 and 3, each with as many bytes as it calls for. -/
theorem witness_SetsPcBytesAreUnsupported :
    (decodeByte 0x10).setsPc = true ∧ (decodeByte 0x10).operandCount ≤ ([] : List Byte).length ∧
      (decodeByte 0x54).setsPc = true ∧ (decodeByte 0x54).operandCount ≤ ([0] : List Byte).length ∧
      (decodeByte 0xFF).setsPc = true ∧ (decodeByte 0xFF).operandCount ≤ ([0, 0, 0] : List Byte).length := by decide

theorem witness_UnsupportedBytesCount : (decodeByte 0xC0).operandCount = 3 ∧ (decodeByte 0xFF).operandCount = 3 := by decide

/-- StepRunsDecodedInstruction: in the middle of memory, and with one byte left. -/
theorem witness_StepRunsDecodedInstruction :
    (core 0 0 0).run = .running ∧ decode (codeBytes ((core 0 0 0).placeBytes 0 [0x82, 0, 8])) = .ok (.ldi 0 8) ∧
      decode (codeBytes ((coreAt 255).placeBytes 255 [0x01])) = .ok .hlt :=
  ⟨rfl, rfl, rfl⟩

/-- OpcodeFetchFaultsPastMemory: both sides of the boundary; that `coreAt 256` meets the invariant is
`witness_MemoryFaultsAriseInThreePlaces`. -/
theorem witness_OpcodeFetchFaultsPastMemory :
    (coreAt 255).pc < 256 ∧ (coreAt 256).run = .running ∧ 256 ≤ (coreAt 256).pc := by decide

/-- MemoryFaultsAriseInThreePlaces: the three places are `test_fetch_faults`; each start state meets the invariant. -/
theorem witness_MemoryFaultsAriseInThreePlaces :
    ∀ pc ∈ [253, 254, 255, 256], (coreAt pc).Inv ∧ (coreAt pc).run = .running ∧ ∃ t, step (coreAt pc) = .next t := by
  intro pc h
  refine ⟨⟨?_, ⟨List.Pairwise.nil, by simp [coreAt, core, State.reset]⟩, .inl rfl, fun h => absurd rfl h, by rintro r ⟨⟩⟩, rfl, ?_⟩
  · simp only [List.mem_cons, List.not_mem_nil, or_false] at h
    simp only [coreAt]; omega
  · fin_cases h <;> exact ⟨_, rfl⟩

/-- UnsupportedOpcodeFaults: 0x00 in the last cell, 0x54 as high as its operand fits. -/
theorem witness_UnsupportedOpcodeFaults :
    (coreAt 255).run = .running ∧ (coreAt 255).pc + (0x00 : Byte).toNat / 64 < 256 ∧ (coreAt 255).mem.get 255 = 0x00 ∧
      (∀ m, Config.opc m ≠ 0x00) ∧ ((coreAt 254).setMem 254 0x54).mem.get 254 = 0x54 ∧ (∀ m, Config.opc m ≠ 0x54) ∧
      (coreAt 254).pc + (0x54 : Byte).toNat / 64 < 256 := by
  refine ⟨rfl, by decide, rfl, fun m => by cases m <;> decide, by decide, fun m => by cases m <;> decide, by decide⟩

/-- UnsupportedOpcodeFaults, second clause: such a fault after a state without one. -/
theorem witness_UnsupportedOpcodeFaults_only :
    (coreAt 253).fault = none ∧
      (after [0xC0] (coreAt 253)).fault = some ⟨.unsupportedOperation, 2, 253, some 0xC0, .opcode 0xC0⟩ := by decide

/-- CountThreeFetchesTwoBytes: one state for each case, where they meet; both ends of the bytes. -/
theorem witness_CountThreeFetchesTwoBytes :
    (coreAt 253).run = .running ∧ 0xC0 ≤ (((coreAt 253).setMem 253 0xC0).mem.get 253).toNat ∧ (coreAt 253).pc ≤ 253 ∧
      0xC0 ≤ (((coreAt 254).setMem 254 0xFF).mem.get 254).toNat ∧ 253 < (coreAt 254).pc ∧ (coreAt 254).pc < 256 ∧
      0xC0 ≤ (0xC0 : Byte).toNat ∧ 0xC0 ≤ (0xFF : Byte).toNat := by decide

/-- FaultEntryChangesNothingElse: a fault with an opcode byte and one without. -/
theorem witness_FaultEntryChangesNothingElse :
    (core 0 0 0).fault = none ∧ (after [0x00] (core 0 0 0)).fault ≠ none ∧ (coreAt 256).fault = none ∧
      (after [] (coreAt 256)).fault ≠ none := by decide

/-- RunEndsByHltOrFault: a Running core without a fault, before HLT and before a fault. -/
theorem witness_RunEndsByHltOrFault :
    (core 0 0 0).run = .running ∧ (core 0 0 0).fault = none ∧ ((core 0 0 0).setMem 0 0x01).mem.get 0 = Config.opc .hlt ∧
      (after [0x01] (core 0 0 0)).run = .halted ∧ (after [0x00] (core 0 0 0)).fault ≠ none ∧ State.reset.run = .halted := by
  decide

/-- BadRegisterOperandFaultsFirst: the first operand, the second, and both bad. -/
theorem witness_BadRegisterOperandFaultsFirst :
    (Instr.add 8 9).regOperands.find? (fun o => decide (8 ≤ o.toNat)) = some 8 ∧
      (Instr.add 7 9).regOperands.find? (fun o => decide (8 ≤ o.toNat)) = some 9 ∧
      (Instr.ldi 255 9).regOperands.find? (fun o => decide (8 ≤ o.toNat)) = some 255 := by decide

/-- EveryInstructionCompletes, FaultsExactlyWhereIncomplete: each of the three own checks passed, and one without. -/
theorem witness_EveryInstructionCompletes :
    Completes .hlt (core 0 0 0) ∧ Completes (.add 0 1) (core 1 2 0) ∧ Completes (.push 0) (core 0 0 1) ∧
      Completes (.pop 0) (core 0 0 0xF3) ∧ Completes (.div 0 1) (core 1 2 0) ∧ Completes (.mod 0 1) (core 1 2 0) := by
  refine ⟨⟨by decide, trivial⟩, ⟨by decide, trivial⟩, ⟨by decide, show (core 0 0 1).reg 7 ≠ 0 by decide⟩,
    ⟨by decide, show ((core 0 0 0xF3).reg 7).toNat < 0xF4 by decide⟩,
    ⟨by decide, show ∀ r : Fin 8, r.val = (1 : Byte).toNat → (core 1 2 0).reg r ≠ 0 by decide⟩,
    ⟨by decide, show ∀ r : Fin 8, r.val = (1 : Byte).toNat → (core 1 2 0).reg r ≠ 0 by decide⟩⟩

/-- FaultsExactlyWhereIncomplete: no fault yet, and a next state where the instruction completes and where it faults. -/
theorem witness_FaultsExactlyWhereIncomplete :
    (core 1 2 0).fault = none ∧ (∃ t, exec (.div 0 1) (core 1 2 0) = .next t ∧ t.fault = none) ∧
      ∃ t, exec (.div 0 1) (core 1 0 0) = .next t ∧ t.fault ≠ none :=
  ⟨rfl, ⟨_, rfl, by decide⟩, ⟨_, rfl, by decide⟩⟩

/-- FlagsWrittenByCmpOnlyAndUnread, MemoryTouchedByStackOnly, OutputWrittenByPrnOnlyAndUnread: an instruction of each kind
with its next state; ADD is none of CMP, PUSH and POP. -/
theorem witness_WholeMachineFrames :
    (∀ a b : Byte, Instr.add 0 1 ≠ .cmp a b) ∧ (∀ r : Byte, Instr.add 0 1 ≠ .push r) ∧ (∀ r : Byte, Instr.add 0 1 ≠ .pop r) ∧
      (∃ t, exec (.add 0 1) (core 1 2 3) = .next t) ∧ (∃ t, exec (.push 0) (core 1 2 3) = .next t ∧ t.mem.get 2 = 1) ∧
      pushAddress (core 1 2 3) = 2 ∧ ∃ t, exec (.prn 0) (core 1 2 3) = .next t ∧ t.out = [1] :=
  ⟨by simp, by simp, by simp, ⟨_, rfl⟩, ⟨_, rfl, by decide⟩, by decide, ⟨_, rfl, by decide⟩⟩

/-- RegistersWrittenByDestinationOnly: a register beside the destination, and register 7 beside an ADD. -/
theorem witness_RegistersWrittenByDestinationOnly :
    (∃ t, exec (.add 0 1) (core 1 2 3) = .next t) ∧ (Instr.add 0 1).dest? ≠ some (regByte 1) ∧
      (Instr.add 0 1).dest? ≠ some (regByte 7) ∧ (∀ o : Byte, Instr.add 0 1 ≠ .push o) ∧ ∀ o : Byte, Instr.add 0 1 ≠ .pop o :=
  ⟨⟨_, rfl⟩, by decide, by decide, by simp, by simp⟩

/-- ImAndIsAreInert, first clause: an ADD that names register 5 as its source only. -/
theorem witness_ImAndIsAreInert_source :
    (∀ i, fetchInstr ((core 1 2 3).placeBytes 0 [0xA0, 0, 5]) = .ok i → i.dest? ≠ some (regByte 5)) ∧
    ∃ t, step ((core 1 2 3).placeBytes 0 [0xA0, 0, 5]) = .next t := by
  refine ⟨fun i h => ?_, _, rfl⟩
  have : fetchInstr ((core 1 2 3).placeBytes 0 [0xA0, 0, 5]) = .ok (.add 0 5) := rfl
  cases this.symm.trans h
  decide

/-- ImAndIsAreInert, both clauses: an ADD of registers 0 and 1, beside registers 5 and 6. -/
theorem witness_ImAndIsAreInert :
    (∀ i, fetchInstr ((core 1 2 3).placeBytes 0 [0xA0, 0, 1]) = .ok i →
      regByte 5 ∉ i.regOperands ∧ regByte 6 ∉ i.regOperands ∧ i.dest? ≠ some (regByte 6)) ∧
    ∃ t, step ((core 1 2 3).placeBytes 0 [0xA0, 0, 1]) = .next t := by
  refine ⟨fun i h => ?_, _, rfl⟩
  have : fetchInstr ((core 1 2 3).placeBytes 0 [0xA0, 0, 1]) = .ok (.add 0 1) := rfl
  cases this.symm.trans h
  decide

/-- LdiLoadsImmediate, PrnEmitsRegister: the clauses about the operand fetch, at each of their addresses. -/
theorem witness_OperandFetch :
    (coreAt 254).run = .running ∧ ((coreAt 254).setMem 254 0x82).mem.get 254 = 0x82 ∧ (coreAt 254).pc = 254 ∧
      ((coreAt 255).setMem 255 0x82).mem.get 255 = 0x82 ∧ ((coreAt 255).setMem 255 0x47).mem.get 255 = 0x47 ∧
      (coreAt 255).pc = 255 := by decide

/-- PushStoresBelowStackPointer, PushOverflowFaults: both ends of the range that has room, and 0. -/
theorem witness_Push :
    (core 9 0 1).mem.wf ∧ (core 9 0 1).reg 7 ≠ 0 ∧ (core 9 0 0xFF).reg 7 ≠ 0 ∧ (core 9 0 0).reg 7 = 0 := by decide

/-- PopLoadsTopOfStack, PopUnderflowFaults: where the two meet, and both ends. -/
theorem witness_Pop :
    ((core 0 0 0xF3).reg 7).toNat < 0xF4 ∧ ((core 0 0 0).reg 7).toNat < 0xF4 ∧ 0xF4 ≤ ((core 0 0 0xF4).reg 7).toNat ∧
      0xF4 ≤ ((core 0 0 0xFF).reg 7).toNat := by decide

/-- DivTruncatesOrFaults, ModIsRemainderOrFaults, DivisionLaw: a divisor of 1, of 255, and of 0. -/
theorem witness_Division :
    (core 7 1 0).reg 1 ≠ 0 ∧ (core 7 255 0).reg 1 ≠ 0 ∧ (core 7 0 0).reg 1 = 0 := by decide

/-- The clause BadRegisterFaults of every statement about an instruction with register operands: 8 and 255, first and
second operand. -/
theorem witness_BadRegisterFaults :
    ¬ WellFormed (.inc 8) ∧ ¬ WellFormed (.ldi 255 0) ∧ ¬ WellFormed (.add 8 0) ∧ ¬ WellFormed (.add 0 8) ∧
      ¬ WellFormed (.div 0 255) := by decide

/-- ShlShiftsByWholeCount, ShrShiftsByWholeCount: the clause about counts of 8 and more, at both ends. -/
theorem witness_Shift : 8 ≤ ((core 1 8 0).reg 1).toNat ∧ 8 ≤ ((core 1 255 0).reg 1).toNat := by decide

/-- PushThenPopRestores, PushThenPopCopies: both ends of the range. -/
theorem witness_PushThenPop :
    (core 9 0 1).mem.wf ∧ 1 ≤ ((core 9 0 1).reg 7).toNat ∧ ((core 9 0 1).reg 7).toNat ≤ 0xF4 ∧
      1 ≤ ((core 9 0 0xF4).reg 7).toNat ∧ ((core 9 0 0xF4).reg 7).toNat ≤ 0xF4 ∧ (0 : Fin 8) ≠ 7 ∧ (1 : Fin 8) ≠ 7 := by
  decide

/-- StackPointerStaysInRange: a PUSH at the top of the range, a POP at its foot, an ADD that names another register. -/
theorem witness_StackPointerStaysInRange :
    ¬ NamesSpAsDest (.push 0) ∧ ¬ NamesSpAsDest (.pop 0) ∧ ¬ NamesSpAsDest (.add 0 7) ∧
      StackInRange (core 0 0 0xF4) ∧ StackInRange (core 0 0 0) ∧
      (after [0x45, 0] (core 0 0 0xF4)).reg 7 = 0xF3 ∧ (after [0x46, 0] (core 0 0 0)).reg 7 = 1 ∧
      (∀ o : Byte, Instr.add 0 7 ≠ .push o) ∧ ∀ o : Byte, Instr.add 0 7 ≠ .pop o :=
  ⟨by simp [NamesSpAsDest, Instr.dest?], by simp [NamesSpAsDest, Instr.dest?], by simp [NamesSpAsDest, Instr.dest?],
    show ((core 0 0 0xF4).reg 7).toNat ≤ 0xF4 by decide, show ((core 0 0 0).reg 7).toNat ≤ 0xF4 by decide, by decide,
    by decide, by simp, by simp⟩

/-- PushedByteIsFetched: P4's push of a HLT byte at address 10, then a fetch from there. -/
theorem witness_PushedByteIsFetched :
    (core 1 0 0x0B).mem.wf ∧ (core 1 0 0x0B).reg 7 ≠ 0 ∧ pushAddress (core 1 0 0x0B) = 10 ∧
      ∃ t, exec (.push (regByte 0)) (core 1 0 0x0B) = .next t ∧ (t.setPc 10).mem = t.mem ∧ t.mem.get 10 = 0x01 :=
  ⟨by decide, by decide, by decide, _, rfl, rfl, by decide⟩

end Sys2Proof.Tests
end

section
/-! Proofs of `spec/00_scope.md`: R9, how a run ends. What an instruction and a step do to `run` and `fault`, said once. -/
namespace Sys2Proof.Machine

/-- HLT's byte is the opcode byte of HLT alone. -/
theorem opcode_eq_hlt_iff {i : Instr} : i.opcode = Config.opc .hlt ↔ i = .hlt := by
  cases i <;> simp [Instr.opcode, Instr.mnemonic, Config.opc]

/-- No handler's effect touches the fault record. -/
theorem Effect.fault_eq {i : Instr} {s s' : State} (h : Effect i s s') : s'.fault = s.fault := by
  cases h <;> rfl

/-- HLT's effect is the only one that touches `run` (`10_state.md` R18). -/
theorem Effect.run_eq {i : Instr} {s s' : State} (h : Effect i s s') :
    s'.run = if i = .hlt then .halted else s.run := by
  cases h with
  | writes a v hd hc =>
    have hi : i ≠ .hlt := by rintro rfl; cases hd
    rw [if_neg hi]; rfl
  | _ => subst_vars; rfl

/-- HLT raises nothing. -/
theorem Raises.ne_hlt {i : Instr} {s : State} {c : Cause} (h : Raises i s c) : i ≠ .hlt := by
  rintro rfl
  exact not_completes_of_raises h ⟨by simp [WellFormed, Instr.regOperands, Instr.operands], trivial⟩

/-- What executing an instruction does to `run` and the fault record: it completes, and only HLT halts; or an
instruction other than HLT faults, which sets the record and halts. -/
theorem exec_run_fault {i : Instr} {s t : State} (h : exec i s = .next t) :
    (t.fault = s.fault ∧ t.run = if i = .hlt then .halted else s.run) ∨
      (i ≠ .hlt ∧ t.fault ≠ none ∧ t.run = .halted) := by
  rcases exec_ends i s with ⟨s', he, hx⟩ | ⟨c, hc, hx⟩ <;> obtain rfl := Host.Outcome.next.inj (h.symm.trans hx)
  · rw [advance_opcode]
    exact .inl ⟨he.fault_eq, he.run_eq⟩
  · exact .inr ⟨hc.ne_hlt, by simp, rfl⟩

/-- The next step of `s` finds HLT's byte at `pc`. -/
def AtHlt (s : State) : Prop := s.pc < 256 ∧ s.mem.get s.pc = Config.opc .hlt

/-- HLT calls for no operand and has a handler, so neither its fetch nor its dispatch faults (`40_run_loop.md` R63, R64). -/
theorem AtHlt.no_fetch_fault {s : State} (h : AtHlt s) :
    (decodeByte (s.mem.get s.pc)).operandCount = 0 ∧ Mnemonic.ofByte? (s.mem.get s.pc) ≠ none := by
  rw [h.2]; decide

/-- The three ways a step of a Running core ends: HLT halts it and keeps the fault record; a fault, never at HLT, halts it
and sets the record; any other instruction leaves both as they are. -/
theorem step_running_ends {s t : State} (hr : s.run = .running) (h : step s = .next t) :
    (AtHlt s ∧ t.run = .halted ∧ t.fault = s.fault) ∨
    (¬ AtHlt s ∧ t.run = .halted ∧ t.fault ≠ none) ∨
    (¬ AtHlt s ∧ t.run = .running ∧ t.fault = s.fault) := by
  rcases step_cases s with ⟨hh, -⟩ | ⟨-, hp, hx⟩ | ⟨-, hp, ⟨hc, hx⟩ | ⟨-, hm, hx⟩ | ⟨i, hb, -, -, hx⟩⟩
  · rw [hr] at hh; cases hh
  · obtain rfl := Host.Outcome.next.inj (h.symm.trans hx)
    exact .inr (.inl ⟨fun hlt => absurd hlt.1 (by omega), rfl, by simp⟩)
  · obtain rfl := Host.Outcome.next.inj (h.symm.trans hx)
    exact .inr (.inl ⟨fun hlt => by have := hlt.no_fetch_fault.1; omega, rfl, by simp⟩)
  · obtain rfl := Host.Outcome.next.inj (h.symm.trans hx)
    exact .inr (.inl ⟨fun hlt => hlt.no_fetch_fault.2 hm, rfl, by simp⟩)
  · have hi : AtHlt s ↔ i = .hlt := by simp [AtHlt, hp, hb, opcode_eq_hlt_iff]
    rw [hx] at h
    rcases exec_run_fault h with ⟨hf, hrun⟩ | ⟨hne, hf, hrun⟩
    · by_cases he : i = .hlt
      · exact .inl ⟨hi.2 he, by rw [hrun, if_pos he], hf⟩
      · exact .inr (.inr ⟨mt hi.1 he, by rw [hrun, if_neg he, hr], hf⟩)
    · exact .inr (.inl ⟨mt hi.1 hne, hrun, hf⟩)

/-- Any number of steps from a Halted state answers that state (`40_run_loop.md` R60). -/
theorem run_of_halted {s : State} (n : Nat) (h : s.run = .halted) : Host.Core.run Sys2Proof.core n s = .next s := by
  induction n with
  | zero => exact run_zero s
  | succ n ih => rw [run_succ_next n (step_of_halted h), ih]

/-- Settles O25, from the three ways a step of a Running core ends and the induction over steps from Halted. -/
theorem runEndsByHltOrFault : Obligations.RunEndsByHltOrFault := by
  refine ⟨fun s t hr hf h => ?_, fun s n hh => run_of_halted n hh⟩
  rw [← and_imp]
  change (t.run = .halted ↔ t.fault ≠ none ∨ AtHlt s) ∧ (AtHlt s → t.fault = none)
  rcases step_running_ends hr h with ⟨ha, hrun, hft⟩ | ⟨ha, hrun, hft⟩ | ⟨ha, hrun, hft⟩
  · simp [ha, hrun, hft, hf]
  · simp [ha, hrun, hft]
  · simp [ha, hrun, hft, hf]

end Sys2Proof.Machine
end

section
/-! Proofs of `spec/10_state.md`: R13 (registers 5 and 6), R17 (`fl`), R21 (`out`). What an instruction writes of each
comes from the six effects; that it does not read it, from a change of the state that passes through `exec`. -/
namespace Sys2Proof.Machine

/-- The state after an instruction: an effect of its handler with `pc` moved past it, or a fault entry. -/
theorem exec_next_cases {i : Instr} {s t : State} (h : exec i s = .next t) :
    (∃ s', Effect i s s' ∧ t = s'.setPc (s'.pc + (i.operands.length + 1))) ∨
      ∃ c, Raises i s c ∧ t = faultEntry (some i.opcode) c s := by
  rcases exec_ends i s with ⟨s', he, hx⟩ | ⟨c, hc, hx⟩ <;> obtain rfl := Host.Outcome.next.inj (h.symm.trans hx)
  · exact .inl ⟨s', he, advance_opcode i s'⟩
  · exact .inr ⟨c, hc, rfl⟩

/-- The state after a step: as before while Halted, the fault of the fetch or the dispatch, or what the fetched
instruction answers (`40_run_loop.md` R67). -/
theorem step_next_cases {s t : State} (h : step s = .next t) :
    (s.run = .halted ∧ t = s) ∨
    (s.run = .running ∧ ∃ p, fetchInstr s = .error p ∧ t = faultEntry p.1 p.2 s) ∨
    (s.run = .running ∧ ∃ i, fetchInstr s = .ok i ∧ exec i s = .next t) := by
  cases hr : s.run with
  | halted =>
    rw [step_of_halted hr] at h
    exact .inl ⟨rfl, (Host.Outcome.next.inj h).symm⟩
  | running =>
    cases hf : fetchInstr s with
    | error p =>
      rw [step_of_fetch_error hr hf] at h
      exact .inr (.inl ⟨rfl, p, rfl, (Host.Outcome.next.inj h).symm⟩)
    | ok i =>
      rw [step_of_fetch hr hf] at h
      exact .inr (.inr ⟨rfl, i, rfl, h⟩)

/-! ## The flags register -/

/-- CMP's effect is the only one that touches `fl`. -/
theorem Effect.fl_eq {i : Instr} {s s' : State} (h : Effect i s s') (hi : ∀ a b, i ≠ .cmp a b) : s'.fl = s.fl := by
  cases h with
  | compares a b hc => exact absurd hc (hi _ _)
  | _ => rfl

/-- No instruction but CMP writes `fl`. -/
theorem exec_fl {i : Instr} {s t : State} (h : exec i s = .next t) (hi : ∀ a b, i ≠ .cmp a b) : t.fl = s.fl := by
  rcases exec_next_cases h with ⟨s', he, rfl⟩ | ⟨c, -, rfl⟩
  · exact he.fl_eq hi
  · rfl

/-- No instruction but CMP depends on `fl`. -/
theorem exec_with_fl {i : Instr} {s t : State} (h : exec i s = .next t) (hi : ∀ a b, i ≠ .cmp a b) (f : Byte) :
    exec i (s.setFl f) = .next (t.setFl f) := by
  refine exec_map i s (·.setFl f) ?_ ?_ ?_ ?_ ?_ ?_ ?_ (fun ⟨a, b, hc⟩ => absurd hc (hi a b)) ?_ ?_ h <;>
    intros <;> rfl

/-- CMP of registers writes the whole of `fl` and moves `pc` on (`44_alu_compare_logic_shift.md` R84). -/
theorem exec_cmp_regs (a b : Fin 8) (s : State) :
    exec (.cmp (regByte a) (regByte b)) s =
      .next ((s.setFl (compareFlags (s.reg a) (s.reg b))).setPc (s.pc + 3)) := by
  simp only [exec, execCmp, regIndex_regByte]
  exact congrArg _ (advance_opcode (.cmp 0 0) _)

/-- Settles O29: the frame and the transport of `fl`; and CMP's result, which has no `fl` in it. -/
theorem flagsWrittenByCmpOnlyAndUnread : Obligations.FlagsWrittenByCmpOnlyAndUnread := by
  refine ⟨fun i s t hi h => ⟨exec_fl h hi, exec_with_fl h hi⟩, fun a b s f => ?_⟩
  rw [exec_cmp_regs, exec_cmp_regs]
  rfl

/-! ## The output -/

/-- PRN of a register raises nothing. -/
theorem Raises.ne_prn {i : Instr} {s : State} {c : Cause} (h : Raises i s c) (a : Fin 8) : i ≠ .prn (regByte a) := by
  rintro rfl
  exact not_completes_of_raises h (completes_of_effect (.emits a rfl))

/-- The list `d` is what the instruction emits from `s`: the register's value for PRN of a register, else nothing. -/
def Emits (i : Instr) (s : State) (d : List Byte) : Prop :=
  (∃ a : Fin 8, i = .prn (regByte a) ∧ d = [s.reg a]) ∨ ((∀ a : Fin 8, i ≠ .prn (regByte a)) ∧ d = [])

/-- A handler's effect appends what the instruction emits. -/
theorem Effect.out_eq {i : Instr} {s s' : State} (h : Effect i s s') : ∃ d, s'.out = s.out ++ d ∧ Emits i s d := by
  cases h with
  | emits a hi => exact ⟨_, rfl, .inl ⟨a, hi, rfl⟩⟩
  | writes a v hd hc =>
    refine ⟨[], by simp, .inr ⟨?_, rfl⟩⟩
    rintro b rfl
    cases hd
  | _ => subst_vars; exact ⟨[], by simp, .inr ⟨by simp, rfl⟩⟩

/-- An instruction appends what it emits, and a fault appends nothing. -/
theorem exec_out {i : Instr} {s t : State} (h : exec i s = .next t) : ∃ d, t.out = s.out ++ d ∧ Emits i s d := by
  rcases exec_next_cases h with ⟨s', he, rfl⟩ | ⟨c, hc, rfl⟩
  · exact he.out_eq
  · exact ⟨[], by simp, .inr ⟨hc.ne_prn, rfl⟩⟩

/-- `s` with `o` in place of the first `n` values emitted. -/
def State.replaceOut (n : Nat) (o : List Byte) (s : State) : State := { s with out := o ++ s.out.drop n }

/-- Emitting comes after the values replaced, so it commutes with replacing them. -/
theorem State.replaceOut_emit (o : List Byte) (s : State) (v : Byte) :
    (s.replaceOut s.out.length o).emit v = (s.emit v).replaceOut s.out.length o := by
  simp [State.replaceOut, State.emit]

/-- No instruction reads `out`: the values emitted before it can be any others. -/
theorem exec_replaceOut {i : Instr} {s t : State} (h : exec i s = .next t) (o : List Byte) :
    exec i (s.replaceOut s.out.length o) = .next (t.replaceOut s.out.length o) := by
  have hemit := State.replaceOut_emit o s
  refine exec_map i s (·.replaceOut s.out.length o) ?_ ?_ ?_ ?_ ?_ ?_ (fun _ => hemit) ?_ ?_ ?_ h <;> intros <;> rfl

/-- Settles O30: what an instruction emits, and the transport of the values emitted before it. -/
theorem outputWrittenByPrnOnlyAndUnread : Obligations.OutputWrittenByPrnOnlyAndUnread := by
  refine ⟨rfl, fun i s t h => ?_⟩
  obtain ⟨d, hout, hd⟩ := exec_out h
  refine ⟨d, hout, hd, fun o => ?_⟩
  simpa [State.replaceOut, hout] using exec_replaceOut h o

/-! ## Registers that an instruction does not name -/

/-- A handler's effect writes the destination register and, PUSH and POP, register 7. -/
theorem Effect.reg_eq {i : Instr} {s s' : State} {r : Fin 8} (h : Effect i s s') (hd : i.dest? ≠ some (regByte r))
    (h7 : r = 7 → (∀ o, i ≠ .push o) ∧ ∀ o, i ≠ .pop o) : s'.reg r = s.reg r := by
  cases h with
  | writes a v ha hc => exact State.setReg_reg_other s v (by rintro rfl; exact hd ha)
  | pushes a hi hs =>
    have hr : r ≠ 7 := fun e => (h7 e).1 _ hi
    rw [State.setMem_reg, State.setReg_reg_other _ _ hr]
  | pops a hi hs =>
    have hr : r ≠ 7 := fun e => (h7 e).2 _ hi
    have ha : r ≠ a := by rintro rfl; exact hd (by rw [hi]; rfl)
    rw [State.setReg_reg_other _ _ hr, State.setReg_reg_other _ _ ha]
  | _ => rfl

/-- An instruction writes its destination register and, PUSH and POP, register 7 (`10_state.md` section 1). -/
theorem exec_reg {i : Instr} {s t : State} {r : Fin 8} (h : exec i s = .next t) (hd : i.dest? ≠ some (regByte r))
    (h7 : r = 7 → (∀ o, i ≠ .push o) ∧ ∀ o, i ≠ .pop o) : t.reg r = s.reg r := by
  rcases exec_next_cases h with ⟨s', he, rfl⟩ | ⟨c, -, rfl⟩
  · exact he.reg_eq hd h7
  · rfl

/-- Writes of two different registers commute. -/
theorem State.setReg_comm (s : State) {r q : Fin 8} (v w : Int) (h : q ≠ r) :
    (s.setReg r v).setReg q w = (s.setReg q w).setReg r v := by
  have hv : r.val ≠ q.val := fun e => h (Fin.ext e.symm)
  simp [State.setReg, Vector.set_comm _ _ hv]

/-- A register's operand byte that is not `r`'s names another register. -/
theorem ne_of_regByte_ne {r q : Fin 8} (h : regByte r ≠ regByte q) : q ≠ r := by
  rintro rfl
  exact h rfl

section
variable {r : Fin 8} (v : Int)

/-- A write of `r` passes through `complete` where it passes through the handler. -/
theorem complete_setReg {ir : Byte} {s t : State} {x y : Except Cause State} (hx : y = x.map (·.setReg r v))
    (h : complete ir s x = .next t) : complete ir (s.setReg r v) y = .next (t.setReg r v) :=
  complete_map hx (advance_map ir (fun _ _ => rfl) fun _ => rfl) (fun _ _ => rfl) h

/-- A write of `r` passes through a register operand's check where it passes through what follows it. -/
theorem regIndex_bind_setReg {o : Byte} {x y : Fin 8 → Except Cause State} (h : regByte r ≠ o)
    (hxy : ∀ q, q ≠ r → y q = (x q).map (·.setReg r v)) :
    regIndex o >>= y = (regIndex o >>= x).map (·.setReg r v) := by
  by_cases h8 : o.toNat < 8
  · obtain ⟨q, rfl⟩ := exists_regByte h8
    rw [regIndex_regByte]
    exact hxy q (ne_of_regByte_ne h)
  · rw [regIndex_error (Nat.le_of_not_lt h8)]; rfl

/-- The two-operand frame does not use a register that its operands do not name. -/
theorem alu2_setReg (f : Byte → Byte → Except Cause Int) {o1 o2 : Byte} (s : State) (h1 : regByte r ≠ o1)
    (h2 : regByte r ≠ o2) : alu2 f o1 o2 (s.setReg r v) = (alu2 f o1 o2 s).map (·.setReg r v) := by
  refine regIndex_bind_setReg v h1 fun a ha => regIndex_bind_setReg v h2 fun b hb => ?_
  rw [State.setReg_reg_other s v ha, State.setReg_reg_other s v hb]
  cases f (s.reg a) (s.reg b) with
  | error c => rfl
  | ok x => exact congrArg Except.ok (State.setReg_comm s v x ha)

/-- The one-operand frame does not use a register that its operand does not name. -/
theorem alu1_setReg (g : Byte → Int) {o : Byte} (s : State) (h : regByte r ≠ o) :
    alu1 g o (s.setReg r v) = (alu1 g o s).map (·.setReg r v) := by
  refine regIndex_bind_setReg v h fun a ha => ?_
  rw [State.setReg_reg_other s v ha, State.setReg_comm s v _ ha]; rfl

/-- PUSH's handler uses register 7 and the register its operand names. -/
theorem pushHandler_setReg {o : Byte} (s : State) (h7 : r ≠ 7) (h : regByte r ≠ o) :
    pushHandler o (s.setReg r v) = (pushHandler o s).map (·.setReg r v) := by
  have hsp : (s.setReg r v).reg 7 = s.reg 7 := State.setReg_reg_other s v h7.symm
  rcases pushHandler_cases o s with ⟨h8, e⟩ | ⟨a, rfl, ⟨h0, e⟩ | ⟨h0, e⟩⟩ <;> rw [e]
  · rw [pushHandler_bad _ h8]; rfl
  · rw [pushHandler_overflow (hsp.trans h0)]; rfl
  · have h0' : (s.setReg r v).reg 7 ≠ 0 := hsp ▸ h0
    rw [pushHandler_ok h0', pushAddress_eq h0', pushAddress_eq h0, hsp, State.setReg_comm s v _ h7.symm,
      State.setReg_reg_other _ v (ne_of_regByte_ne h)]
    rfl

/-- POP's handler uses register 7 and the register its operand names. -/
theorem popHandler_setReg {o : Byte} (s : State) (h7 : r ≠ 7) (h : regByte r ≠ o) :
    popHandler o (s.setReg r v) = (popHandler o s).map (·.setReg r v) := by
  have hsp : ∀ s : State, (s.setReg r v).reg 7 = s.reg 7 := fun s => State.setReg_reg_other s v h7.symm
  rcases popHandler_cases o s with ⟨h8, e⟩ | ⟨a, rfl, ⟨h0, e⟩ | ⟨h0, e⟩⟩ <;> rw [e]
  · rw [popHandler_bad _ h8]; rfl
  · rw [popHandler_underflow (by rwa [hsp])]; rfl
  · rw [popHandler_ok (by rwa [hsp]), hsp, State.setReg_mem, State.setReg_comm s v _ (ne_of_regByte_ne h), hsp,
      State.setReg_comm _ v _ h7.symm]
    rfl

/-- An instruction does not use a register other than 7 that no operand names: a write of it passes through. -/
theorem exec_setReg {i : Instr} {s t : State} (h7 : r ≠ 7) (hn : regByte r ∉ i.regOperands) (h : exec i s = .next t) :
    exec i (s.setReg r v) = .next (t.setReg r v) := by
  cases i <;> simp only [Instr.regOperands, Instr.operands, List.mem_cons, List.not_mem_nil, or_false, not_or] at hn
  case hlt =>
    obtain rfl := Host.Outcome.next.inj h
    rfl
  case ldi a imm =>
    refine complete_setReg v (regIndex_bind_setReg v hn fun q hq => ?_) h
    exact congrArg Except.ok (State.setReg_comm s v _ hq)
  case prn a =>
    refine complete_setReg v (regIndex_bind_setReg v hn fun q hq => ?_) h
    rw [State.setReg_reg_other s v hq]; rfl
  case push a => exact complete_setReg v (pushHandler_setReg v s h7 hn) h
  case pop a => exact complete_setReg v (popHandler_setReg v s h7 hn) h
  case cmp a b =>
    refine complete_setReg v (regIndex_bind_setReg v hn.1 fun q hq => regIndex_bind_setReg v hn.2 fun p hp => ?_) h
    rw [State.setReg_reg_other s v hq, State.setReg_reg_other s v hp]; rfl
  case inc a => exact complete_setReg v (alu1_setReg v _ s hn) h
  case dec a => exact complete_setReg v (alu1_setReg v _ s hn) h
  case not a => exact complete_setReg v (alu1_setReg v _ s hn) h
  all_goals exact complete_setReg v (alu2_setReg v _ s hn.1 hn.2) h

end

/-- The fetch reads `pc` and memory only. -/
theorem fetchInstr_setReg (s : State) (r : Fin 8) (v : Int) : fetchInstr (s.setReg r v) = fetchInstr s := rfl

/-- A step does not write a register other than 7 that the fetched instruction, if any, does not have as destination. -/
theorem step_reg {s t : State} {r : Fin 8} (h7 : r ≠ 7) (h : step s = .next t)
    (hd : ∀ i, fetchInstr s = .ok i → i.dest? ≠ some (regByte r)) : t.reg r = s.reg r := by
  rcases step_next_cases h with ⟨-, rfl⟩ | ⟨-, p, -, rfl⟩ | ⟨-, i, hf, hx⟩
  · rfl
  · rfl
  · exact exec_reg hx (hd i hf) fun e => absurd e h7

/-- A step does not read a register other than 7 that the fetched instruction, if any, does not name. -/
theorem step_setReg {s t : State} {r : Fin 8} (h7 : r ≠ 7) (h : step s = .next t)
    (hn : ∀ i, fetchInstr s = .ok i → regByte r ∉ i.regOperands) (v : Int) :
    step (s.setReg r v) = .next (t.setReg r v) := by
  rcases step_next_cases h with ⟨hr, rfl⟩ | ⟨hr, p, hf, rfl⟩ | ⟨hr, i, hf, hx⟩
  · exact step_of_halted hr
  · exact step_of_fetch_error hr ((fetchInstr_setReg s r v).trans hf)
  · have hs : step (s.setReg r v) = exec i (s.setReg r v) := step_of_fetch hr ((fetchInstr_setReg s r v).trans hf)
    exact hs.trans (exec_setReg v h7 (hn i hf) hx)

/-- Settles O33: of registers 5 and 6 all that is used is that neither is register 7, which PUSH and POP use unnamed. -/
theorem imAndIsAreInert : Obligations.ImAndIsAreInert := by
  intro s t r hr h
  have h7 : r ≠ 7 := by rcases hr with rfl | rfl <;> decide
  refine ⟨step_reg h7 h, fun hn v => ?_⟩
  simpa only [State.setReg, narrow_toNat_self] using step_setReg h7 h hn v.toNat

end Sys2Proof.Machine
end

section
/-! Proofs of `spec/20_memory.md`: R32, the two checked primitives. A read after a write, from the laws of memory. -/
namespace Sys2Proof.Machine

/-- Reset's memory reads 0 at every address. -/
theorem memRead_reset {a : Nat} (h : a < 256) : memRead a State.reset = .ok 0 := memRead_ok State.reset h

/-- A read of the address just written gives the byte written. -/
theorem memRead_setMem_same {s : State} {a : Nat} (v : Byte) (h : a < 256) (hw : s.mem.wf) :
    memRead a (s.setMem a v) = .ok v := by
  rw [memRead_ok _ h, State.setMem_mem, Memory.get_set_same _ _ _ hw]

/-- A read of any other address, in range or not, does not see the write. -/
theorem memRead_setMem_other (s : State) {a c : Nat} (v : Byte) (h : c ≠ a) :
    memRead c (s.setMem a v) = memRead c s := by
  simp only [memRead, State.setMem_mem, Memory.get_set_other _ _ h]

/-- Settles O10: both primitives in and out of range; the state a write answers, by the reads after `setMem`. -/
theorem memoryPrimitivesCheckAndStore : Obligations.MemoryPrimitivesCheckAndStore := by
  refine fun s a v => ⟨fun h => ⟨memRead_error s h, memWrite_error v s h⟩,
    fun h => ⟨memRead_ok s h, memRead_reset h⟩, fun h hw => ?_⟩
  refine ⟨s.setMem a (narrow v), memWrite_ok v s h, rfl, ?_, fun c hc => memRead_setMem_other s _ hc⟩
  exact ⟨narrow v, memRead_setMem_same _ h hw, narrow_toNat v⟩

end Sys2Proof.Machine
end

section
/-! Proofs of `spec/30_encoding.md`: R47, the fields of the opcode byte by arithmetic; R50, the sets-PC bit. -/
namespace Sys2Proof

/-- Bits 7-6 by division. -/
theorem decodeByte_operandCount_eq (b : Byte) : (decodeByte b).operandCount = b.toNat / 64 := by
  have hb : b.toNat < 256 := b.isLt
  simp only [decodeByte, BitVec.extractLsb'_toNat, Nat.shiftRight_eq_div_pow]
  omega

/-- Bit 5 by division and remainder. -/
theorem decodeByte_isAluOp_eq (b : Byte) : (decodeByte b).isAluOp = decide (b.toNat / 32 % 2 = 1) :=
  Nat.testBit_eq_decide_div_mod_eq (x := b.toNat) (i := 5)

/-- Bit 4 by division and remainder. -/
theorem decodeByte_setsPc_eq (b : Byte) : (decodeByte b).setsPc = decide (b.toNat / 16 % 2 = 1) :=
  Nat.testBit_eq_decide_div_mod_eq (x := b.toNat) (i := 4)

/-- Bits 3-0 by remainder. -/
theorem decodeByte_opId_toNat (b : Byte) : (decodeByte b).opId.toNat = b.toNat % 16 := by
  simp only [decodeByte, BitVec.extractLsb'_toNat, Nat.shiftRight_zero, Nat.reducePow]

/-- Settles O13, field by field. -/
theorem opcodeFieldsAreBitRanges : Obligations.OpcodeFieldsAreBitRanges := fun b =>
  ⟨decodeByte_operandCount_eq b, decodeByte_isAluOp_eq b, decodeByte_setsPc_eq b, decodeByte_opId_toNat b⟩

/-- The operand fetch does not fail where every byte that the count calls for can be read. -/
theorem operandBytes_ne_error {ε : Type} {read : Nat → Except ε Byte} {n : Nat} (h : ∀ k, k ≤ n → ∃ o, read k = .ok o)
    (e : ε) : operandBytes read n ≠ .error e := by
  rcases n with _ | _ | n
  · simp [operandBytes]
  · obtain ⟨o1, h1⟩ := h 1 (by omega)
    simp [operandBytes, h1]
  · obtain ⟨o1, h1⟩ := h 1 (by omega)
    obtain ⟨o2, h2⟩ := h 2 (by omega)
    simp [operandBytes, h1, h2]

/-- A list is read at each position it has. -/
theorem listRead_of_lt {bytes : List Byte} {k : Nat} (h : k < bytes.length) : listRead bytes k = .ok bytes[k] := by
  simp only [listRead, List.getElem?_eq_getElem h]

/-- A byte that is no instruction's, followed by the bytes it calls for, is unsupported (`30_encoding.md` R55). -/
theorem decode_unsupported {b : Byte} {rest : List Byte} (hb : Mnemonic.ofByte? b = none)
    (hn : (decodeByte b).operandCount ≤ rest.length) : decode (b :: rest) = .error (.unsupported b) := by
  have hread : ∀ k, k ≤ (decodeByte b).operandCount → ∃ o, listRead (b :: rest) k = .ok o := fun k hk =>
    ⟨_, listRead_of_lt (by rw [List.length_cons]; omega)⟩
  rcases decodeFrom_cases (listRead (b :: rest)) rfl with ⟨e, he, -⟩ | ⟨o1, o2, -, ⟨-, hx⟩ | ⟨m, hm, -⟩⟩
  · exact absurd he (operandBytes_ne_error hread e)
  · exact hx
  · exact absurd hm.symm (ofByte?_none_iff.1 hb m)

/-- The instruction built of a mnemonic has that mnemonic. -/
@[simp] theorem mnemonic_build (m : Mnemonic) (o1 o2 : Byte) : (m.build o1 o2).mnemonic = m := by
  cases m <;> rfl

/-- No mnemonic's byte has the sets-PC bit, since no instruction's has. -/
theorem opc_setsPc (m : Mnemonic) : (decodeByte (Config.opc m)).setsPc = false := by
  simpa [Instr.opcode] using Machine.opcode_setsPc (m.build 0 0)

/-- A byte with the sets-PC bit is no mnemonic's. -/
theorem ofByte?_none_of_setsPc {b : Byte} (h : (decodeByte b).setsPc = true) : Mnemonic.ofByte? b = none := by
  refine ofByte?_none_iff.2 fun m hm => ?_
  rw [← hm, opc_setsPc] at h
  cases h

/-- Settles O16: no mnemonic's byte has the bit, so a byte with it has no handler. -/
theorem setsPcBytesAreUnsupported : Obligations.SetsPcBytesAreUnsupported :=
  ⟨opc_setsPc, fun _ hb _ hn => decode_unsupported (ofByte?_none_of_setsPc hb) hn⟩

end Sys2Proof
end

section
/-! Proofs of `spec/40_run_loop.md`: R60, the Halted step; R61, the opcode fetch; R69, HLT. -/
namespace Sys2Proof.Machine

/-- Settles O5 by the law of the Halted step. -/
theorem haltedStepChangesNothing : Obligations.HaltedStepChangesNothing := fun _ h => step_of_halted h

/-- A Running core with `pc` outside memory enters the fault of its opcode fetch (`40_run_loop.md` R61). -/
theorem step_noOpcode {s : State} (hr : s.run = .running) (hp : 256 ≤ s.pc) :
    step s = .next (faultEntry none (.addressOutOfRange .mem s.pc) s) :=
  step_of_fetch_error hr (fetchInstr_noOpcode hp)

/-- Settles O19: the checked read at `pc` on both sides of 256, and the invariant's bound on `pc`. -/
theorem opcodeFetchFaultsPastMemory : Obligations.OpcodeFetchFaultsPastMemory := by
  refine ⟨fun s hp => memRead_ok s hp, fun s hr hp => ?_, fun s hs hp => Nat.le_antisymm hs.pc_le hp⟩
  exact ⟨_, step_noOpcode hr hp, _, faultEntry_eq none (.addressOutOfRange .mem s.pc) s⟩

/-- HLT's handler always completes and calls for no operand: it halts, then `pc` moves on by 1 (`40_run_loop.md` R69). -/
theorem exec_hlt (s : State) : exec .hlt s = .next ((s.setRun .halted).setPc (s.pc + 1)) :=
  (complete_ok _ s _).trans (congrArg _ (advance_opcode .hlt (s.setRun .halted)))

/-- Settles O34: halting and the advance are the two fields written. -/
theorem hltHalts : Obligations.HltHalts := exec_hlt

end Sys2Proof.Machine
end

section
/-! Proofs of `spec/41_load_print.md`: R70, LDI; R71, PRN. What their faults share with other instructions, the bad
register operand and the operand fetch past memory, is said for every instruction. -/
namespace Sys2Proof.Machine

/-- Where the instruction's own check passes, only a bad register operand is left to raise. -/
theorem Raises.bad_register {i : Instr} {s : State} {c : Cause} (h : Raises i s c) (ho : OwnCheckPasses i s) :
    ∃ o ∈ i.regOperands, 8 ≤ o.toNat ∧ c = .addressOutOfRange .reg o.toNat := by
  rcases h with h | ⟨-, a, b, rfl | rfl, h⟩ | ⟨-, ⟨a, rfl⟩, h⟩ | ⟨-, ⟨a, rfl⟩, h⟩
  · exact h
  · exact absurd h (ho b (by simp))
  · exact absurd h (ho b (by simp))
  · exact absurd ho (Nat.not_lt.2 h)
  · exact absurd h ho

/-- An instruction with a bad register operand, whose own check passes, enters that operand's fault
(`60_exceptions.md` R93). -/
theorem exec_bad_register {i : Instr} {s : State} (hw : ¬ WellFormed i) (ho : OwnCheckPasses i s) :
    ∃ o ∈ i.regOperands, 8 ≤ o.toNat ∧
      exec i s = .next (faultEntry (some i.opcode) (.addressOutOfRange .reg o.toNat) s) := by
  rcases exec_ends i s with ⟨s', he, -⟩ | ⟨c, hc, hx⟩
  · exact absurd (completes_of_effect he).1 hw
  · obtain ⟨o, hmem, h8, rfl⟩ := hc.bad_register ho
    exact ⟨o, hmem, h8, hx⟩

/-- An instruction whose own check passes in every state faults for a bad register operand in every state. -/
theorem badRegisterFaults_of_ownCheckPasses {i : Instr} (ho : ∀ s, OwnCheckPasses i s) : BadRegisterFaults i := by
  intro s hw
  obtain ⟨o, hmem, h8, hx⟩ := exec_bad_register hw (ho s)
  exact ⟨_, o, hmem, h8, hx, _, faultEntry_eq _ _ s⟩

/-- A Running core enters the fault of its operand fetch where the byte at `pc` calls for the byte at 256
(`40_run_loop.md` R63). -/
theorem step_noOperand {s : State} {b : Byte} (hr : s.run = .running) (hb : s.mem.get s.pc = b)
    (hc : (decodeByte b).operandCount ≠ 0 ∧ s.pc = 255 ∨ 2 ≤ (decodeByte b).operandCount ∧ s.pc = 254) :
    step s = .next (faultEntry (some b) (.addressOutOfRange .mem 256) s) := by
  subst hb
  rcases fetchInstr_cases (s := s) (by omega) with ⟨-, hf⟩ | ⟨hn, -⟩ | ⟨i, hb, hl, -⟩
  · exact step_of_fetch_error hr hf
  · exact absurd hc hn
  · rw [hb, opcode_operandCount] at hc
    omega

/-- A register write followed by the move of `pc` changes nothing else. -/
theorem writesOnly_setReg_setPc (s : State) (a : Fin 8) (v : Int) (n : Nat) :
    WritesOnly s ((s.setReg a v).setPc (s.pc + n)) a n := by
  simp [WritesOnly, State.setPc, State.setReg, State.reg]

/-- LDI to a register: the byte is stored as it stands and `pc` moves on by 3. -/
theorem exec_ldi_reg (a : Fin 8) (v : Byte) (s : State) :
    exec (.ldi (regByte a) v) s = .next ((s.setReg a v.toNat).setPc (s.pc + 3)) := by
  simp only [exec, execLdi, regIndex_regByte]
  exact congrArg _ (advance_opcode (.ldi 0 0) _)

/-- PRN of a register: its value is emitted and `pc` moves on by 2. -/
theorem exec_prn_reg (a : Fin 8) (s : State) :
    exec (.prn (regByte a)) s = .next ((s.emit (s.reg a)).setPc (s.pc + 2)) := by
  simp only [exec, execPrn, regIndex_regByte]
  exact congrArg _ (advance_opcode (.prn 0) _)

/-- Settles O35: LDI's effect, and its two faults; its byte calls for two operands, so both 254 and 255 are too far. -/
theorem ldiLoadsImmediate : Obligations.LdiLoadsImmediate := by
  refine ⟨fun _ _ => rfl, fun s a v => ⟨_, exec_ldi_reg a v s, by simp, writesOnly_setReg_setPc s a _ 3⟩,
    fun _ _ => badRegisterFaults_of_ownCheckPasses fun _ => trivial, fun s hr hb hp => ?_⟩
  have hn : (decodeByte 0x82).operandCount = 2 := by decide
  exact ⟨_, step_noOperand hr hb (by omega), _, faultEntry_eq _ _ s⟩

/-- Settles O36: PRN's effect, and its two faults; its byte calls for one operand, so only 255 is too far. -/
theorem prnEmitsRegister : Obligations.PrnEmitsRegister := by
  refine ⟨fun _ => rfl, fun s a => exec_prn_reg a s,
    fun _ => badRegisterFaults_of_ownCheckPasses fun _ => trivial, fun s hr hb hp => ?_⟩
  have hn : (decodeByte 0x47).operandCount = 1 := by decide
  exact ⟨_, step_noOperand hr hb (by omega), _, faultEntry_eq _ _ s⟩

end Sys2Proof.Machine
end

section
/-! Proofs of `spec/42_stack.md`: R72, PUSH; R73, POP; R74, what they do together; with `20_memory.md` R43, the pushed byte
fetched. The states that PUSH and POP leave have a name each and a lemma per register and address. -/
namespace Sys2Proof.Machine

/-- Two states with the same value in each register have the same registers. -/
theorem State.regs_eq_of_reg_eq {s t : State} (h : ∀ r : Fin 8, s.reg r = t.reg r) : s.regs = t.regs :=
  Vector.ext fun r hr => h ⟨r, hr⟩

/-- A one-operand instruction that in every state enters the fault of a bad operand, whatever its own check says. -/
theorem badRegisterFaults_of_exec {i : Instr} {o : Byte} (hr : i.regOperands = [o])
    (hx : 8 ≤ o.toNat → ∀ s, exec i s = .next (faultEntry (some i.opcode) (.addressOutOfRange .reg o.toNat) s)) :
    BadRegisterFaults i := by
  intro s hw
  have h8 : 8 ≤ o.toNat := by simpa [WellFormed, hr, NamesRegister] using hw
  exact ⟨_, o, by simp [hr], h8, hx h8 s, _, faultEntry_eq _ _ s⟩

/-! ## PUSH -/

/-- The value PUSH stores: the register's, or for register 7 the decremented pointer (`42_stack.md` R72, D10). -/
def State.pushValue (s : State) (a : Fin 8) : Byte := if a = 7 then s.reg 7 - 1 else s.reg a

/-- The state PUSH of register `a` leaves where there is room (`42_stack.md` R72). -/
def State.pushed (s : State) (a : Fin 8) : State :=
  ((s.setReg 7 ((s.reg 7).toNat - 1)).setMem (pushAddress s) (s.pushValue a)).setPc (s.pc + 2)

/-- The value PUSH stores is what its register holds after the decrement. -/
theorem State.setReg_sub_one_reg (s : State) (a : Fin 8) :
    (s.setReg 7 ((s.reg 7).toNat - 1)).reg a = s.pushValue a := by
  by_cases ha : a = 7
  · subst ha
    simp [State.pushValue]
  · rw [State.setReg_reg_other s _ ha, State.pushValue, if_neg ha]

/-- PUSH of a register with room answers `State.pushed`. -/
theorem exec_push_pushed {s : State} (a : Fin 8) (h : s.reg 7 ≠ 0) :
    exec (.push (regByte a)) s = .next (s.pushed a) := by
  rw [exec_push_ok a h, State.setReg_sub_one_reg]
  rfl

/-- The address PUSH stores to is the decremented pointer. -/
theorem pushAddress_eq_toNat (s : State) : pushAddress s = (s.reg 7 - 1).toNat := by
  simp [pushAddress]

section
variable (s : State) (a : Fin 8)

/-- PUSH takes 1 from register 7, also where it pushes register 7. -/
@[simp] theorem State.pushed_reg_sp : (s.pushed a).reg 7 = s.reg 7 - 1 := by
  simp [State.pushed]

/-- PUSH leaves every register but 7 as it was. -/
theorem State.pushed_reg_other {r : Fin 8} (h : r ≠ 7) : (s.pushed a).reg r = s.reg r :=
  State.setReg_reg_other s _ h

/-- The byte PUSH stored stands at its address. -/
theorem State.pushed_get_address (hw : s.mem.wf) : (s.pushed a).mem.get (pushAddress s) = s.pushValue a :=
  Memory.get_set_same s.mem _ _ hw

/-- PUSH stores at one address only. -/
theorem State.pushed_get_other {b : Nat} (h : b ≠ pushAddress s) : (s.pushed a).mem.get b = s.mem.get b :=
  Memory.get_set_other s.mem _ h

/-- After PUSH the top of the stack is the value pushed. -/
theorem State.pushed_get_sp (hw : s.mem.wf) :
    (s.pushed a).mem.get ((s.pushed a).reg 7).toNat = s.pushValue a := by
  rw [State.pushed_reg_sp, ← pushAddress_eq_toNat, State.pushed_get_address s a hw]

end

/-- PUSH checks its operand before it checks for room. -/
theorem exec_push_bad {o : Byte} (h : 8 ≤ o.toNat) (s : State) :
    exec (.push o) s = .next (faultEntry (some (Instr.push o).opcode) (.addressOutOfRange .reg o.toNat) s) := by
  simp only [exec, execPush, pushHandler_bad s h]
  rfl

/-- Settles O37: the state PUSH leaves, register by register and address by address. -/
theorem pushStoresBelowStackPointer : Obligations.PushStoresBelowStackPointer := by
  refine ⟨fun s a hw h7 => ⟨s.pushed a, exec_push_pushed a h7, pushAddress_eq h7, s.pushed_reg_sp a, ?_, ?_, ?_, rfl⟩,
    fun _ => badRegisterFaults_of_exec rfl exec_push_bad⟩
  · exact fun _ hr => s.pushed_reg_other a hr
  · exact s.pushed_get_address a hw
  · exact fun _ hb => s.pushed_get_other a hb

/-- Settles O58: the opcode fetch is the checked read at `pc`, and the pushed byte stands there. -/
theorem pushedByteIsFetched : Obligations.PushedByteIsFetched := by
  intro s t u a hw h7 h hmem hpc
  obtain rfl := Host.Outcome.next.inj ((exec_push_pushed a h7).symm.trans h)
  have hread : codeRead u 0 = .ok ((s.pushed a).mem.get (pushAddress s)) := by
    rw [codeRead, hpc, Nat.add_zero, memRead_ok u (pushAddress_lt s), hmem]
  exact ⟨hread, hread.trans (congrArg _ (s.pushed_get_address a hw))⟩

/-! ## POP -/

/-- The state POP into register `a` leaves where there is a byte to pop (`42_stack.md` R73). -/
def State.popped (s : State) (a : Fin 8) : State :=
  ((s.setReg a (s.mem.get (s.reg 7).toNat).toNat).setReg 7
    (((s.setReg a (s.mem.get (s.reg 7).toNat).toNat).reg 7).toNat + 1)).setPc (s.pc + 2)

/-- POP into a register below the marker answers `State.popped`. -/
theorem exec_pop_popped {s : State} (a : Fin 8) (h : (s.reg 7).toNat < 0xF4) :
    exec (.pop (regByte a)) s = .next (s.popped a) := exec_pop_ok a h

section
variable (s : State)

/-- POP R7 increments the byte it loaded (`42_stack.md` R73, D10). -/
theorem State.popped_sp_reg_sp : (s.popped 7).reg 7 = s.mem.get (s.reg 7).toNat + 1 := by
  simp [State.popped]

/-- POP into another register adds 1 to register 7. -/
theorem State.popped_reg_sp {a : Fin 8} (h : a ≠ 7) : (s.popped a).reg 7 = s.reg 7 + 1 := by
  simp [State.popped, State.setReg_reg_other s _ h.symm]

/-- POP into another register than 7 loads the byte at register 7. -/
theorem State.popped_reg_dest {a : Fin 8} (h : a ≠ 7) : (s.popped a).reg a = s.mem.get (s.reg 7).toNat := by
  simp [State.popped, State.setReg_reg_other _ _ h]

/-- POP leaves every register but its destination and 7 as it was. -/
theorem State.popped_reg_other {a r : Fin 8} (h7 : r ≠ 7) (ha : r ≠ a) : (s.popped a).reg r = s.reg r := by
  simp [State.popped, State.setReg_reg_other _ _ h7, State.setReg_reg_other _ _ ha]

end

/-- POP checks its operand before it checks for a pushed byte. -/
theorem exec_pop_bad {o : Byte} (h : 8 ≤ o.toNat) (s : State) :
    exec (.pop o) s = .next (faultEntry (some (Instr.pop o).opcode) (.addressOutOfRange .reg o.toNat) s) := by
  simp only [exec, execPop, popHandler_bad s h]
  rfl

/-- Settles O39: the state POP leaves, register by register. -/
theorem popLoadsTopOfStack : Obligations.PopLoadsTopOfStack := by
  refine ⟨fun s a h7 => ⟨s.popped a, exec_pop_popped a h7, ?_, ?_, ?_, rfl⟩,
    fun _ => badRegisterFaults_of_exec rfl exec_pop_bad⟩
  · exact fun ha => ⟨s.popped_reg_dest ha, s.popped_reg_sp ha⟩
  · rintro rfl
    exact s.popped_sp_reg_sp
  · exact fun _ hr ha => s.popped_reg_other hr ha

/-! ## PUSH then POP -/

/-- PUSH then POP into another register than 7: that register holds the value pushed, and every other one, register 7
among them, is as before. -/
theorem State.popped_pushed_reg {s : State} (a : Fin 8) {b : Fin 8} (hb : b ≠ 7) (hw : s.mem.wf) (r : Fin 8) :
    ((s.pushed a).popped b).reg r = if r = b then s.pushValue a else s.reg r := by
  by_cases hr : r = b
  · subst hr
    rw [if_pos rfl, State.popped_reg_dest _ hb, State.pushed_get_sp s a hw]
  · rw [if_neg hr]
    by_cases h7 : r = 7
    · subst h7
      rw [State.popped_reg_sp _ hb, State.pushed_reg_sp, BitVec.sub_add_cancel]
    · rw [State.popped_reg_other _ h7 hr, State.pushed_reg_other s a h7]

/-- PUSH R7 then POP R7 restores every register: the increment undoes the decrement of the pointer stored. -/
theorem State.popped_pushed_sp_reg {s : State} (hw : s.mem.wf) (r : Fin 8) :
    ((s.pushed 7).popped 7).reg r = s.reg r := by
  by_cases h7 : r = 7
  · subst h7
    rw [State.popped_sp_reg_sp, State.pushed_get_sp s 7 hw, State.pushValue, if_pos rfl, BitVec.sub_add_cancel]
  · rw [State.popped_reg_other _ h7 h7, State.pushed_reg_other s 7 h7]

/-- PUSH then POP of the same register restores every register. -/
theorem State.popped_pushed_same_reg {s : State} (a : Fin 8) (hw : s.mem.wf) (r : Fin 8) :
    ((s.pushed a).popped a).reg r = s.reg r := by
  by_cases ha : a = 7
  · subst ha
    exact State.popped_pushed_sp_reg hw r
  · rw [State.popped_pushed_reg a ha hw, State.pushValue, if_neg ha]
    split
    · next h => rw [h]
    · rfl

/-- A byte of 1 or more is not 0. -/
theorem ne_zero_of_one_le_toNat {b : Byte} (h : 1 ≤ b.toNat) : b ≠ 0 := by
  rintro rfl
  simp at h

/-- With register 7 in 1 to 0xF4 there is room for a PUSH, and a byte to pop after it. -/
theorem exec_push_pop {s : State} (a b : Fin 8) (h1 : 1 ≤ (s.reg 7).toNat) (h2 : (s.reg 7).toNat ≤ 0xF4) :
    exec (.push (regByte a)) s = .next (s.pushed a) ∧
      exec (.pop (regByte b)) (s.pushed a) = .next ((s.pushed a).popped b) := by
  have h7 : s.reg 7 ≠ 0 := ne_zero_of_one_le_toNat h1
  refine ⟨exec_push_pushed a h7, exec_pop_popped b ?_⟩
  rw [State.pushed_reg_sp, toNat_sub_one h7]
  omega

/-- Settles O55: the two states, the registers restored, and the one byte PUSH left in memory. -/
theorem pushThenPopRestores : Obligations.PushThenPopRestores := by
  intro s a hw h1 h2
  obtain ⟨hpush, hpop⟩ := exec_push_pop a a h1 h2
  have hregs : ((s.pushed a).popped a).regs = s.regs := State.regs_eq_of_reg_eq (State.popped_pushed_same_reg a hw)
  rw [← pushAddress_eq (ne_zero_of_one_le_toNat h1)]
  exact ⟨_, _, hpush, hpop, State.ext_fields hregs rfl rfl rfl rfl rfl rfl, s.pushed_get_address a hw,
    fun _ hb => s.pushed_get_other a hb⟩

/-- Settles O56: the registers after PUSH and POP, the value pushed being the register's. -/
theorem pushThenPopCopies : Obligations.PushThenPopCopies := by
  intro s a b ha hb hw h1 h2
  obtain ⟨hpush, hpop⟩ := exec_push_pop a b h1 h2
  refine ⟨_, _, hpush, hpop, ?_, fun r hr => ?_⟩
  · rw [State.popped_pushed_reg a hb hw, if_pos rfl, State.pushValue, if_neg ha]
  · rw [State.popped_pushed_reg a hb hw, if_neg hr]

/-! ## The range of the stack pointer -/

/-- A handler's effect changes no byte but the one PUSH stores. -/
theorem Effect.mem_get_eq {i : Instr} {s s' : State} {b : Nat} (h : Effect i s s')
    (hb : ∀ o, i = .push o → s.reg 7 ≠ 0 → b ≠ pushAddress s) : s'.mem.get b = s.mem.get b := by
  cases h with
  | pushes a hi h7 => exact Memory.get_set_other s.mem _ (hb _ hi h7)
  | _ => rfl

/-- An instruction changes no byte but the one that PUSH with room stores. -/
theorem exec_mem_get {i : Instr} {s t : State} {b : Nat} (h : exec i s = .next t)
    (hb : ∀ o, i = .push o → s.reg 7 ≠ 0 → b ≠ pushAddress s) : t.mem.get b = s.mem.get b := by
  rcases exec_next_cases h with ⟨s', he, rfl⟩ | ⟨c, -, rfl⟩
  · exact he.mem_get_eq hb
  · rfl

/-- What an effect leaves in register 7 where it is not the destination: PUSH with room takes 1 from it, POP below the
marker adds 1, and every other instruction keeps it. -/
theorem Effect.sp_cases {i : Instr} {s s' : State} (h : Effect i s s') (hd : ¬ NamesSpAsDest i) :
    (s.reg 7 ≠ 0 ∧ s'.reg 7 = s.reg 7 - 1) ∨ ((s.reg 7).toNat < 0xF4 ∧ s'.reg 7 = s.reg 7 + 1) ∨ s'.reg 7 = s.reg 7 := by
  cases h with
  | pushes a hi h7 => exact .inl ⟨h7, by simp⟩
  | pops a hi h7 =>
    have ha : (7 : Fin 8) ≠ a := by
      rintro rfl
      exact hd (by rw [hi]; rfl)
    exact .inr (.inl ⟨h7, by simp [State.setReg_reg_other s _ ha]⟩)
  | writes a v ha hc =>
    exact .inr (.inr (State.setReg_reg_other s v (by rintro rfl; exact hd ha)))
  | _ => exact .inr (.inr rfl)

/-- An effect that does not name register 7 as its destination keeps it in range (`42_stack.md` R74 point 1). -/
theorem Effect.stackInRange {i : Instr} {s s' : State} (h : Effect i s s') (hd : ¬ NamesSpAsDest i)
    (hs : StackInRange s) : StackInRange s' := by
  unfold StackInRange at *
  rcases h.sp_cases hd with ⟨h7, e⟩ | ⟨h7, e⟩ | e <;> rw [e]
  · rw [toNat_sub_one h7]
    omega
  · have : (s.reg 7 + 1).toNat = (s.reg 7).toNat + 1 := BitVec.toNat_add_of_lt (by simp; omega)
    omega
  · exact hs

/-- Settles O57: register 7 by the effects and the frame of registers; memory because PUSH stores below the pointer. -/
theorem stackPointerStaysInRange : Obligations.StackPointerStaysInRange := by
  intro i s t hd hs h
  refine ⟨?_, fun hpush hpop => exec_reg h hd fun _ => ⟨hpush, hpop⟩, fun b hb => exec_mem_get h fun _ _ h7 => ?_⟩
  · rcases exec_next_cases h with ⟨s', he, rfl⟩ | ⟨c, -, rfl⟩
    · exact he.stackInRange hd hs
    · exact hs
  · unfold StackInRange at hs
    rw [pushAddress_eq h7]
    omega

end Sys2Proof.Machine
end

section
/-! Proofs of `spec/43_alu_arithmetic.md`: R76 to R82, ADD, SUB, MUL, DIV, MOD, INC, DEC; R83 point 5, the division law.
What the two ALU frames leave is said once for a result modulo 256, a result below 256, and a function that raises. -/
namespace Sys2Proof.Machine

/-! ## The two ALU frames -/

section
variable {i : Instr} {f : Byte → Byte → Except Cause Int} {g : Byte → Int} {s : State} {a b : Fin 8}

/-- An instruction over ALU2 stores its function's integer result modulo 256. -/
theorem alu2_mod256 {r : Int} (hi : exec i s = complete i.opcode s (alu2 f (regByte a) (regByte b) s))
    (hf : f (s.reg a) (s.reg b) = .ok r) (hl : i.operands.length = 2) :
    ∃ t, exec i s = .next t ∧ ((t.reg a).toNat : Int) = r % 256 ∧ WritesOnly s t a 3 := by
  obtain ⟨t, hx, hv, hw⟩ := alu2_next hi hf hl
  exact ⟨t, hx, by rw [hv, narrow_toNat], hw⟩

/-- `alu2_mod256` for a result that is a natural number. -/
theorem alu2_natCast_mod256 {n : Nat} (hi : exec i s = complete i.opcode s (alu2 f (regByte a) (regByte b) s))
    (hf : f (s.reg a) (s.reg b) = .ok (n : Int)) (hl : i.operands.length = 2) :
    ∃ t, exec i s = .next t ∧ (t.reg a).toNat = n % 256 ∧ WritesOnly s t a 3 := by
  obtain ⟨t, hx, hv, hw⟩ := alu2_mod256 hi hf hl
  exact ⟨t, hx, by exact_mod_cast hv, hw⟩

/-- An instruction over ALU2 whose function's result fits in a byte stores it as it is. -/
theorem alu2_natCast_of_lt {n : Nat} (hi : exec i s = complete i.opcode s (alu2 f (regByte a) (regByte b) s))
    (hf : f (s.reg a) (s.reg b) = .ok (n : Int)) (hl : i.operands.length = 2) (hn : n < 256) :
    ∃ t, exec i s = .next t ∧ (t.reg a).toNat = n ∧ WritesOnly s t a 3 := by
  obtain ⟨t, hx, hv, hw⟩ := alu2_natCast_mod256 hi hf hl
  exact ⟨t, hx, hv.trans (Nat.mod_eq_of_lt hn), hw⟩

/-- An instruction over ALU2 whose function raises enters the fault of that cause. -/
theorem alu2_faults {c : Cause} (hi : exec i s = complete i.opcode s (alu2 f (regByte a) (regByte b) s))
    (hf : f (s.reg a) (s.reg b) = .error c) :
    ∃ t, exec i s = .next t ∧ FaultsWith s t (some i.opcode) c.kind c.info :=
  ⟨_, by rw [hi, alu2_raise hf, complete_error], _, faultEntry_eq _ c s⟩

/-- An instruction over ALU1 stores its function's integer result modulo 256. -/
theorem alu1_mod256 {r : Int} (hi : exec i s = complete i.opcode s (alu1 g (regByte a) s)) (hg : g (s.reg a) = r)
    (hl : i.operands.length = 1) :
    ∃ t, exec i s = .next t ∧ ((t.reg a).toNat : Int) = r % 256 ∧ WritesOnly s t a 2 := by
  obtain ⟨t, hx, hv, hw⟩ := alu1_next hi hl
  exact ⟨t, hx, by rw [hv, hg, narrow_toNat], hw⟩

/-- `alu1_mod256` for a result that is a natural number. -/
theorem alu1_natCast_mod256 {n : Nat} (hi : exec i s = complete i.opcode s (alu1 g (regByte a) s))
    (hg : g (s.reg a) = (n : Int)) (hl : i.operands.length = 1) :
    ∃ t, exec i s = .next t ∧ (t.reg a).toNat = n % 256 ∧ WritesOnly s t a 2 := by
  obtain ⟨t, hx, hv, hw⟩ := alu1_mod256 hi hg hl
  exact ⟨t, hx, by exact_mod_cast hv, hw⟩

end

/-- An instruction over ALU2 checks both operands before its function runs, so a bad one faults whatever the function
would raise (`43_alu_arithmetic.md` R75, `60_exceptions.md` R98). -/
theorem badRegisterFaults_of_alu2 {i : Instr} {f : Byte → Byte → Except Cause Int} {o1 o2 : Byte}
    (hi : ∀ s, exec i s = complete i.opcode s (alu2 f o1 o2 s)) (hr : i.regOperands = [o1, o2]) :
    BadRegisterFaults i := by
  intro s hw
  rw [hi s]
  rcases alu2_cases f o1 o2 s with ⟨h8, e⟩ | ⟨-, h8, e⟩ | ⟨a, b, rfl, rfl, -⟩
  · exact ⟨_, o1, by simp [hr], h8, by rw [e, complete_error], _, faultEntry_eq _ _ s⟩
  · exact ⟨_, o2, by simp [hr], h8, by rw [e, complete_error], _, faultEntry_eq _ _ s⟩
  · exact absurd (by simp [WellFormed, hr, NamesRegister]) hw

/-! ## DIV and MOD -/

/-- DIV's function by a divisor that is not 0. -/
theorem quotient_ok {va vb : Byte} (h : vb ≠ 0) : quotient va vb = .ok ((va.toNat / vb.toNat : Nat) : Int) := if_neg h

/-- DIV's function by 0. -/
theorem quotient_zero (va : Byte) : quotient va 0 = .error .divisionByZero := rfl

/-- MOD's function by a divisor that is not 0. -/
theorem remainder_ok {va vb : Byte} (h : vb ≠ 0) : remainder va vb = .ok ((va.toNat % vb.toNat : Nat) : Int) := if_neg h

/-- MOD's function by 0. -/
theorem remainder_zero (va : Byte) : remainder va 0 = .error .divisionByZero := rfl

section
variable {s : State} {b : Fin 8} (a : Fin 8)

/-- DIV by a register that is not 0: the quotient is at most the dividend, so it fits. -/
theorem exec_div_reg (h : s.reg b ≠ 0) : ∃ t, exec (.div (regByte a) (regByte b)) s = .next t ∧
    (t.reg a).toNat = (s.reg a).toNat / (s.reg b).toNat ∧ WritesOnly s t a 3 :=
  alu2_natCast_of_lt rfl (quotient_ok h) rfl (Nat.lt_of_le_of_lt (Nat.div_le_self _ _) (s.reg a).isLt)

/-- MOD by a register that is not 0: the remainder is at most the dividend, so it fits. -/
theorem exec_mod_reg (h : s.reg b ≠ 0) : ∃ t, exec (.mod (regByte a) (regByte b)) s = .next t ∧
    (t.reg a).toNat = (s.reg a).toNat % (s.reg b).toNat ∧ WritesOnly s t a 3 :=
  alu2_natCast_of_lt rfl (remainder_ok h) rfl (Nat.lt_of_le_of_lt (Nat.mod_le _ _) (s.reg a).isLt)

end

/-- Settles O44: the quotient fits in a byte, and the operands are checked before the divisor. -/
theorem divTruncatesOrFaults : Obligations.DivTruncatesOrFaults :=
  ⟨fun _ a _ hb => exec_div_reg a hb,
    fun _ _ _ hb => alu2_faults rfl (hb ▸ quotient_zero _),
    fun _ _ => badRegisterFaults_of_alu2 (fun _ => rfl) rfl⟩

/-- Settles O45: the remainder fits in a byte, and the operands are checked before the divisor. -/
theorem modIsRemainderOrFaults : Obligations.ModIsRemainderOrFaults :=
  ⟨fun _ a _ hb => exec_mod_reg a hb,
    fun _ _ _ hb => alu2_faults rfl (hb ▸ remainder_zero _),
    fun _ _ => badRegisterFaults_of_alu2 (fun _ => rfl) rfl⟩

/-- Settles O59: what the two instructions store, and the division law of the natural numbers. -/
theorem divisionLaw : Obligations.DivisionLaw := by
  intro s a b hb
  obtain ⟨t, ht, hq, -⟩ := exec_div_reg a hb
  obtain ⟨u, hu, hr, -⟩ := exec_mod_reg a hb
  have hpos : 0 < (s.reg b).toNat := Nat.pos_of_ne_zero fun h0 => hb (BitVec.eq_of_toNat_eq h0)
  refine ⟨t, u, ht, hu, ?_, ?_⟩
  · rw [hq, hr, Nat.div_add_mod']
  · rw [hr]
    exact Nat.mod_lt _ hpos

/-! ## ADD, SUB, MUL, INC, DEC -/

/-- Settles O41: ADD's integer sum is the sum of natural numbers, stored by ALU2. -/
theorem addIsModulo256 : Obligations.AddIsModulo256 :=
  ⟨fun _ _ _ => alu2_natCast_mod256 rfl rfl rfl, fun _ _ => badRegisterFaults_of_ownCheckPasses fun _ => trivial⟩

/-- Settles O42: SUB's difference is taken in the integers, so ALU2 stores its mathematical remainder. -/
theorem subIsModulo256 : Obligations.SubIsModulo256 :=
  ⟨fun _ _ _ => alu2_mod256 rfl rfl rfl, fun _ _ => badRegisterFaults_of_ownCheckPasses fun _ => trivial⟩

/-- Settles O43: MUL's integer product is the product of natural numbers, stored by ALU2. -/
theorem mulIsModulo256 : Obligations.MulIsModulo256 :=
  ⟨fun _ _ _ => alu2_natCast_mod256 rfl rfl rfl, fun _ _ => badRegisterFaults_of_ownCheckPasses fun _ => trivial⟩

/-- Settles O46: INC's integer successor is the natural number's, stored by ALU1. -/
theorem incAddsOne : Obligations.IncAddsOne :=
  ⟨fun _ _ => alu1_natCast_mod256 rfl rfl rfl, fun _ => badRegisterFaults_of_ownCheckPasses fun _ => trivial⟩

/-- Settles O47: DEC's predecessor is taken in the integers, so ALU1 stores its mathematical remainder. -/
theorem decTakesOne : Obligations.DecTakesOne :=
  ⟨fun _ _ => alu1_mod256 rfl rfl rfl, fun _ => badRegisterFaults_of_ownCheckPasses fun _ => trivial⟩

end Sys2Proof.Machine
end

section
/-! Proofs of `spec/44_alu_compare_logic_shift.md`: R84, CMP; R85 to R88, AND, OR, XOR, NOT; R89, SHL; R90, SHR. The logic
functions answer a byte, which the ALU frames store as it is; the shifts are a product and a quotient of natural numbers,
and of both a count of 8 or more leaves 0. -/
namespace Sys2Proof.Machine

/-! ## SHL and SHR -/

/-- Shifting left by 8 or more moves every bit out of the byte (`44_alu_compare_logic_shift.md` R89, D12). -/
theorem mul_two_pow_mod256 (v : Nat) {n : Nat} (h : 8 ≤ n) : v * 2 ^ n % 256 = 0 :=
  Nat.mod_eq_zero_of_dvd ((Nat.pow_dvd_pow 2 h).mul_left v)

/-- Shifting a byte right by 8 or more moves every bit out of it (`44_alu_compare_logic_shift.md` R90, D12). -/
theorem toNat_div_two_pow (v : Byte) {n : Nat} (h : 8 ≤ n) : v.toNat / 2 ^ n = 0 :=
  Nat.div_eq_of_lt (v.isLt.trans_le (Nat.pow_le_pow_right (by decide) h))

/-- Settles O53: SHL's product is stored modulo 256 by ALU2, and from a count of 8 up 256 divides it. -/
theorem shlShiftsByWholeCount : Obligations.ShlShiftsByWholeCount := by
  refine ⟨fun s a b => ?_, fun _ _ => badRegisterFaults_of_ownCheckPasses fun _ => trivial⟩
  obtain ⟨t, hx, hv, hw⟩ := alu2_natCast_mod256 (i := .shl (regByte a) (regByte b)) (s := s) rfl rfl rfl
  exact ⟨t, hx, hv, fun h => BitVec.eq_of_toNat_eq (hv.trans (mul_two_pow_mod256 _ h)), hw⟩

/-- Settles O54: SHR's quotient fits in a byte, and from a count of 8 up the divisor exceeds every byte. -/
theorem shrShiftsByWholeCount : Obligations.ShrShiftsByWholeCount := by
  refine ⟨fun s a b => ?_, fun _ _ => badRegisterFaults_of_ownCheckPasses fun _ => trivial⟩
  obtain ⟨t, hx, hv, hw⟩ := alu2_natCast_of_lt (i := .shr (regByte a) (regByte b)) (s := s) rfl rfl rfl
    (Nat.lt_of_le_of_lt (Nat.div_le_self _ _) (s.reg a).isLt)
  exact ⟨t, hx, hv, fun h => BitVec.eq_of_toNat_eq (hv.trans (toNat_div_two_pow _ h)), hw⟩

/-! ## CMP -/

/-- Settles O48: the state CMP leaves, its flag byte by the order of the two values. -/
theorem cmpWritesFlags : Obligations.CmpWritesFlags := by
  refine ⟨fun s a b => ?_, fun _ _ => badRegisterFaults_of_ownCheckPasses fun _ => trivial⟩
  rw [exec_cmp_regs, compareFlags_eq]
  rfl

/-! ## AND, OR, XOR, NOT -/

/-- An instruction over ALU2 whose function answers a byte stores that byte, so its bits. -/
theorem alu2_getLsbD {i : Instr} {f : Byte → Byte → Except Cause Int} {s : State} {a b : Fin 8} {v : Byte}
    {bit : Nat → Bool} (hi : exec i s = complete i.opcode s (alu2 f (regByte a) (regByte b) s))
    (hf : f (s.reg a) (s.reg b) = .ok (v.toNat : Int)) (hl : i.operands.length = 2)
    (hv : ∀ k, v.getLsbD k = bit k) :
    ∃ t, exec i s = .next t ∧ (∀ k < 8, (t.reg a).getLsbD k = bit k) ∧ WritesOnly s t a 3 := by
  obtain ⟨t, hx, ht, hw⟩ := alu2_next hi hf hl
  rw [narrow_toNat_self] at ht
  exact ⟨t, hx, fun k _ => ht ▸ hv k, hw⟩

/-- Settles O49: AND's byte, bit by bit. -/
theorem andIsBitwise : Obligations.AndIsBitwise :=
  ⟨fun _ _ _ => alu2_getLsbD rfl rfl rfl fun _ => BitVec.getLsbD_and,
    fun _ _ => badRegisterFaults_of_ownCheckPasses fun _ => trivial⟩

/-- Settles O50: OR's byte, bit by bit. -/
theorem orIsBitwise : Obligations.OrIsBitwise :=
  ⟨fun _ _ _ => alu2_getLsbD rfl rfl rfl fun _ => BitVec.getLsbD_or,
    fun _ _ => badRegisterFaults_of_ownCheckPasses fun _ => trivial⟩

/-- Settles O51: XOR's byte, bit by bit. -/
theorem xorIsBitwise : Obligations.XorIsBitwise :=
  ⟨fun _ _ _ => alu2_getLsbD rfl rfl rfl fun _ => BitVec.getLsbD_xor,
    fun _ _ => badRegisterFaults_of_ownCheckPasses fun _ => trivial⟩

/-- Settles O52: NOT's byte is stored as it is, and the complement of a byte is 255 less it. -/
theorem notIsComplement : Obligations.NotIsComplement := by
  refine ⟨fun s a => ?_, fun _ => badRegisterFaults_of_ownCheckPasses fun _ => trivial⟩
  obtain ⟨t, hx, ht, hw⟩ := alu1_next (i := .not (regByte a)) (s := s) rfl rfl
  rw [narrow_toNat_self] at ht
  exact ⟨t, hx, ht ▸ BitVec.toNat_not, hw⟩

end Sys2Proof.Machine
end

section
/-! Proofs of `spec/60_exceptions.md`: R92, the memory faults; R94, the unsupported opcode; R96 and R97, the stack's own
checks; R99, what fault entry changes. All that a step can raise is said once, and both directions of R92 and R94 and the
record of R99 come from it. -/
namespace Sys2Proof.Machine

/-- A fault entry faults with its cause's kind and information. -/
theorem faultsWith_faultEntry (o : Option Byte) (c : Cause) (s : State) :
    FaultsWith s (faultEntry o c s) o c.kind c.info := ⟨_, faultEntry_eq o c s⟩

/-! ## What a step can raise -/

/-- The byte at `pc` calls for an operand byte at address 256 (`40_run_loop.md` R63; a count of 3 fetches two, D6). -/
def OperandPastMemory (s : State) : Prop :=
  (decodeByte (s.mem.get s.pc)).operandCount ≠ 0 ∧ s.pc = 255 ∨
    2 ≤ (decodeByte (s.mem.get s.pc)).operandCount ∧ s.pc = 254

/-- The opcode byte and the cause that a step from `s` can enter a fault with, in the order of `60_exceptions.md` R98:
the opcode fetch, the operand fetch, the dispatch, the handler. -/
inductive StepRaises (s : State) : Option Byte → Cause → Prop where
  | noOpcode (hp : 256 ≤ s.pc) : StepRaises s none (.addressOutOfRange .mem s.pc)
  | noOperand (hp : s.pc < 256) (hc : OperandPastMemory s) :
      StepRaises s (some (s.mem.get s.pc)) (.addressOutOfRange .mem 256)
  | unsupported (hp : s.pc < 256) (hc : ¬ OperandPastMemory s) (hm : ∀ m, Config.opc m ≠ s.mem.get s.pc) :
      StepRaises s (some (s.mem.get s.pc)) (.unsupportedOperation (s.mem.get s.pc))
  | handler (hp : s.pc < 256) {i : Instr} {c : Cause} (hb : s.mem.get s.pc = i.opcode) (hf : fetchInstr s = .ok i)
      (hc : Raises i s c) : StepRaises s (some i.opcode) c

/-- A step that ends with a fault record, from a state without one, is a fault entry with something a step can raise. -/
theorem step_fault_cases {s t : State} (hs : s.fault = none) (h : step s = .next t) (ht : t.fault ≠ none) :
    ∃ o c, StepRaises s o c ∧ t = faultEntry o c s := by
  rcases step_cases s with ⟨-, hx⟩ | ⟨-, hp, hx⟩ | ⟨-, hp, ⟨hc, hx⟩ | ⟨hc, hm, hx⟩ | ⟨i, hb, -, hf, hx⟩⟩
  · obtain rfl := Host.Outcome.next.inj (h.symm.trans hx)
    exact absurd hs ht
  · exact ⟨_, _, .noOpcode hp, Host.Outcome.next.inj (h.symm.trans hx)⟩
  · exact ⟨_, _, .noOperand hp hc, Host.Outcome.next.inj (h.symm.trans hx)⟩
  · exact ⟨_, _, .unsupported hp hc (ofByte?_none_iff.1 hm), Host.Outcome.next.inj (h.symm.trans hx)⟩
  · rcases exec_next_cases (hx.symm.trans h) with ⟨s', he, rfl⟩ | ⟨c, hc, rfl⟩
    · exact absurd (he.fault_eq.trans hs) ht
    · exact ⟨_, c, .handler hp hb hf hc, rfl⟩

/-- No handler raises UnsupportedOperation (`60_exceptions.md` R94). -/
theorem Raises.kind_ne_unsupported {i : Instr} {s : State} {c : Cause} (h : Raises i s c) :
    c.kind ≠ .unsupportedOperation := by
  rcases h with ⟨o, -, -, rfl⟩ | ⟨rfl, -⟩ | ⟨rfl, -⟩ | ⟨rfl, -⟩ <;> simp [Cause.kind]

/-- No handler raises a fault that names a memory address: PUSH and POP access memory in range (`60_exceptions.md` R92). -/
theorem Raises.info_ne_mem {i : Instr} {s : State} {c : Cause} (h : Raises i s c) (a : Nat) :
    c.info ≠ .address .mem a := by
  rcases h with ⟨o, -, -, rfl⟩ | ⟨rfl, -⟩ | ⟨rfl, -⟩ | ⟨rfl, -⟩ <;> simp [Cause.info]

section
variable {s : State} {o : Option Byte} {c : Cause}

/-- The opcode byte of a raised fault is the byte at `pc`, absent outside memory. -/
theorem StepRaises.opcode_eq (h : StepRaises s o c) : o = if s.pc < 256 then some (s.mem.get s.pc) else none := by
  cases h with
  | noOpcode hp => rw [if_neg (Nat.not_lt.2 hp)]
  | noOperand hp | unsupported hp => rw [if_pos hp]
  | handler hp hb => rw [if_pos hp, hb]

/-- A raised fault that names a memory address is the opcode fetch's, which names `pc`, or the operand fetch's, which
names 256. -/
theorem StepRaises.mem_address {a : Nat} (h : StepRaises s o c) (hi : c.info = .address .mem a) :
    (256 ≤ s.pc ∧ a = s.pc) ∨ (OperandPastMemory s ∧ a = 256) := by
  cases h with
  | noOpcode hp => cases hi; exact .inl ⟨hp, rfl⟩
  | noOperand hp hc => cases hi; exact .inr ⟨hc, rfl⟩
  | unsupported => cases hi
  | handler hp hb hf hc => exact absurd hi (hc.info_ne_mem a)

/-- UnsupportedOperation is the dispatch's, for a byte that is no mnemonic's, after the operand fetch. -/
theorem StepRaises.of_unsupported (h : StepRaises s o c) (hk : c.kind = .unsupportedOperation) :
    s.pc < 256 ∧ ¬ OperandPastMemory s ∧ (∀ m, Config.opc m ≠ s.mem.get s.pc) ∧
      c = .unsupportedOperation (s.mem.get s.pc) := by
  cases h with
  | noOpcode | noOperand => cases hk
  | unsupported hp hc hm => exact ⟨hp, hc, hm, rfl⟩
  | handler hp hb hf hc => exact absurd hk hc.kind_ne_unsupported

end

/-- A Running core dispatches a byte that is no mnemonic's, its operand bytes fetched, to UnsupportedOperation
(`40_run_loop.md` R64). -/
theorem step_unsupported {s : State} (hr : s.run = .running) (hp : s.pc < 256) (hc : ¬ OperandPastMemory s)
    (hm : ∀ m, Config.opc m ≠ s.mem.get s.pc) :
    step s = .next (faultEntry (some (s.mem.get s.pc)) (.unsupportedOperation (s.mem.get s.pc)) s) := by
  rcases fetchInstr_cases hp with ⟨hc', -⟩ | ⟨-, -, hf⟩ | ⟨i, hb, -, -⟩
  · exact absurd hc' hc
  · exact step_of_fetch_error hr hf
  · exact absurd hb.symm (hm i.mnemonic)

/-- A Running core in its invariant has no fault record. -/
theorem State.Inv.fault_eq_none {s : State} (hs : s.Inv) (hr : s.run = .running) : s.fault = none := by
  by_contra hf
  cases hr.symm.trans (hs.fault_halts hf)

/-! ## Memory faults, unsupported opcodes, fault entry -/

/-- Settles O20: a memory fault is one of the two fetches', and each of the three places makes its fetch fault. -/
theorem memoryFaultsAriseInThreePlaces : Obligations.MemoryFaultsAriseInThreePlaces := by
  intro s t a hs hr h
  constructor
  · rintro ⟨r, ht, -, hi⟩
    obtain ⟨o, c, hc, rfl⟩ := step_fault_cases (hs.fault_eq_none hr) h (by simp [ht])
    obtain rfl := Option.some.inj ht
    rcases hc.mem_address hi with ⟨hp, rfl⟩ | ⟨⟨hn, hp⟩ | ⟨hn, hp⟩, rfl⟩
    · have hp' : s.pc = 256 := Nat.le_antisymm hs.pc_le hp
      exact ⟨hp', .inl hp'⟩
    · exact ⟨rfl, .inr (.inl ⟨hp, hn⟩)⟩
    · exact ⟨rfl, .inr (.inr ⟨hp, hn⟩)⟩
  · rintro ⟨rfl, hplace⟩
    obtain ⟨o, hx⟩ : ∃ o, step s = .next (faultEntry o (.addressOutOfRange .mem 256) s) := by
      rcases hplace with hp | ⟨hp, hn⟩ | ⟨hp, hn⟩
      · exact ⟨_, hp ▸ step_noOpcode hr hp.ge⟩
      · exact ⟨_, step_noOperand hr rfl (.inl ⟨hn, hp⟩)⟩
      · exact ⟨_, step_noOperand hr rfl (.inr ⟨hn, hp⟩)⟩
    obtain rfl := Host.Outcome.next.inj (h.symm.trans hx)
    exact ⟨_, rfl, rfl, rfl⟩

/-- Settles O21: the dispatch is reached where the operand bytes are in memory, and nothing else raises the kind. -/
theorem unsupportedOpcodeFaults : Obligations.UnsupportedOpcodeFaults := by
  constructor
  · rintro s _ hr hp rfl hm hl
    have hc : ¬ OperandPastMemory s := by
      rw [OperandPastMemory, decodeByte_operandCount_eq]
      omega
    exact ⟨_, step_unsupported hr hp hc hm, faultsWith_faultEntry _ _ s⟩
  · intro s t r hs h ht hk
    obtain ⟨o, c, hc, rfl⟩ := step_fault_cases hs h (by simp [ht])
    obtain rfl := Option.some.inj ht
    obtain ⟨hp, hn, hm, rfl⟩ := hc.of_unsupported hk
    refine ⟨hp, hm, rfl, fun hlt => ?_⟩
    rw [OperandPastMemory, decodeByte_operandCount_eq] at hn
    omega

/-- Settles O23: a step that sets the record is a fault entry, with the opcode byte at `pc`. -/
theorem faultEntryChangesNothingElse : Obligations.FaultEntryChangesNothingElse := by
  intro s t hs h ht
  obtain ⟨o, c, hc, rfl⟩ := step_fault_cases hs h ht
  exact ⟨_, faultEntry_eq o c s, rfl, rfl, hc.opcode_eq⟩

/-! ## The stack's own checks -/

/-- PUSH of a register without room enters StackOverflow (`60_exceptions.md` R97). -/
theorem exec_push_overflow {s : State} (a : Fin 8) (h : s.reg 7 = 0) :
    exec (.push (regByte a)) s = .next (faultEntry (some (Config.opc .push)) .stackOverflow s) := by
  simp only [exec, execPush, pushHandler_overflow h, complete_error]

/-- POP into a register with nothing pushed enters StackUnderflow (`60_exceptions.md` R96). -/
theorem exec_pop_underflow {s : State} (a : Fin 8) (h : 0xF4 ≤ (s.reg 7).toNat) :
    exec (.pop (regByte a)) s = .next (faultEntry (some (Config.opc .pop)) .stackUnderflow s) := by
  simp only [exec, execPop, popHandler_underflow h, complete_error]

/-- Settles O38: PUSH's handler raises before it writes. -/
theorem pushOverflowFaults : Obligations.PushOverflowFaults := fun s a h =>
  ⟨_, exec_push_overflow a h, faultsWith_faultEntry _ .stackOverflow s⟩

/-- Settles O40: POP's handler raises before it writes. -/
theorem popUnderflowFaults : Obligations.PopUnderflowFaults := fun s a h =>
  ⟨_, exec_pop_underflow a h, faultsWith_faultEntry _ .stackUnderflow s⟩

end Sys2Proof.Machine
end

section
/-! Proofs about the machine's invariant (`10_state.md` R15 to R20) and about whole runs (`40_run_loop.md` R65 to R68).
A step of a Running core is a fault entry or a completed instruction; the invariant and the move of `pc` are read off
these two. -/
namespace Sys2Proof.Machine

/-! ## The two ways a step of a Running core ends -/

/-- No handler's effect moves `pc`: only the advance does (`40_run_loop.md` R65). -/
theorem Effect.pc_eq {i : Instr} {s s' : State} (h : Effect i s s') : s'.pc = s.pc := by
  cases h <;> rfl

/-- The instruction `i`, all its bytes in memory at `pc`, completes with `t`: an effect of its handler, then the advance
past its bytes. -/
def CompletesWith (s : State) (i : Instr) (t : State) : Prop :=
  s.mem.get s.pc = i.opcode ∧ s.pc + i.operands.length < 256 ∧
    ∃ s', Effect i s s' ∧ t = s'.setPc (s.pc + (i.operands.length + 1))

/-- A step of a Running core enters a fault that a step can raise, or completes the instruction at `pc`. -/
theorem step_running_cases {s t : State} (hr : s.run = .running) (h : step s = .next t) :
    (∃ o c, StepRaises s o c ∧ t = faultEntry o c s) ∨ (s.pc < 256 ∧ ∃ i, CompletesWith s i t) := by
  rcases step_cases s with ⟨hh, -⟩ | ⟨-, hp, hx⟩ | ⟨-, hp, ⟨hc, hx⟩ | ⟨hc, hm, hx⟩ | ⟨i, hb, hl, hf, hx⟩⟩
  · cases hr.symm.trans hh
  · exact .inl ⟨_, _, .noOpcode hp, Host.Outcome.next.inj (h.symm.trans hx)⟩
  · exact .inl ⟨_, _, .noOperand hp hc, Host.Outcome.next.inj (h.symm.trans hx)⟩
  · exact .inl ⟨_, _, .unsupported hp hc (ofByte?_none_iff.1 hm), Host.Outcome.next.inj (h.symm.trans hx)⟩
  · rcases exec_next_cases (hx.symm.trans h) with ⟨s', he, ht⟩ | ⟨c, hc, ht⟩
    · exact .inr ⟨hp, i, hb, hl, s', he, by rw [ht, he.pc_eq]⟩
    · exact .inl ⟨_, c, .handler hp hb hf hc, ht⟩

/-- Executing any instruction answers a next state. -/
theorem exec_answers (i : Instr) (s : State) : ∃ t, exec i s = .next t := by
  rcases exec_ends i s with ⟨s', -, hx⟩ | ⟨c, -, hx⟩ <;> exact ⟨_, hx⟩

/-- Settles O4: a Halted step, the fault of a fetch or the dispatch, and an instruction all answer a next state. -/
theorem stepAlwaysAnswersAState : Obligations.StepAlwaysAnswersAState := by
  intro s
  rcases step_cases s with ⟨-, hx⟩ | ⟨-, -, hx⟩ | ⟨-, -, ⟨-, hx⟩ | ⟨-, -, hx⟩ | ⟨i, -, -, -, hx⟩⟩
  · exact ⟨_, hx⟩
  · exact ⟨_, hx⟩
  · exact ⟨_, hx⟩
  · exact ⟨_, hx⟩
  · rw [hx]
    exact exec_answers i s

/-! ## The invariant -/

/-- A handler raises legal causes only: a register operand is one byte, so its index is at most 255. -/
theorem Raises.legalCause {i : Instr} {s : State} {c : Cause} (h : Raises i s c) : LegalCause c := by
  rcases h with ⟨o, -, h8, rfl⟩ | ⟨rfl, -⟩ | ⟨rfl, -⟩ | ⟨rfl, -⟩
  · exact ⟨h8, Nat.le_of_lt_succ o.isLt⟩
  all_goals exact trivial

/-- A handler raises only the kinds of its own instruction. -/
theorem Raises.raisedUnder {i : Instr} {s : State} {c : Cause} (h : Raises i s c) :
    RaisedUnder c.kind (some i.opcode) := by
  rcases h with ⟨o, -, -, rfl⟩ | ⟨rfl, a, b, rfl | rfl, -⟩ | ⟨rfl, ⟨a, rfl⟩, -⟩ | ⟨rfl, ⟨a, rfl⟩, -⟩
  · exact trivial
  · exact .inl rfl
  · exact .inr rfl
  · exact rfl
  · exact rfl

/-- A step raises legal causes only: the opcode fetch fails at 256, as `pc` is no further (`60_exceptions.md` R92). -/
theorem StepRaises.legalCause {s : State} {o : Option Byte} {c : Cause} (h : StepRaises s o c) (hp : s.pc ≤ 256) :
    LegalCause c := by
  cases h with
  | noOpcode hge => exact Nat.le_antisymm hp hge
  | noOperand => exact rfl
  | unsupported _ _ hm => exact ofByte?_none_iff.2 hm
  | handler _ _ _ hc => exact hc.legalCause

/-- The kinds that a handler's own check raises are raised under that handler's opcode byte only. -/
theorem StepRaises.raisedUnder {s : State} {o : Option Byte} {c : Cause} (h : StepRaises s o c) :
    RaisedUnder c.kind o := by
  cases h with
  | noOpcode | noOperand | unsupported => exact trivial
  | handler _ _ _ hc => exact hc.raisedUnder

/-- Entering a fault that a step can raise keeps the invariant. -/
theorem State.Inv.faultEntry {s : State} {o : Option Byte} {c : Cause} (hs : s.Inv) (hc : StepRaises s o c) :
    (faultEntry o c s).Inv where
  pc_le := hs.pc_le
  mem_wf := hs.mem_wf
  fl_legal := hs.fl_legal
  fault_halts _ := rfl
  record_legal r hr := by
    obtain rfl := Option.some.inj hr
    exact ⟨⟨c, hc.legalCause hs.pc_le, rfl, rfl, rfl⟩, rfl, hc.opcode_eq, hc.raisedUnder⟩

/-- A handler's effect keeps memory in its canonical form: only PUSH stores, and below 256. -/
theorem Effect.mem_wf {i : Instr} {s s' : State} (h : Effect i s s') (hw : s.mem.wf) : s'.mem.wf := by
  cases h with
  | pushes a hi h7 => exact Memory.set_wf _ _ _ (pushAddress_lt s) hw
  | _ => exact hw

/-- CMP's flag byte is one of the three with one flag set (`10_state.md` R16). -/
theorem compareFlags_cases (va vb : Byte) :
    compareFlags va vb = 1 ∨ compareFlags va vb = 2 ∨ compareFlags va vb = 4 := by
  rw [compareFlags_eq]
  split
  · exact .inl rfl
  · split
    · exact .inr (.inl rfl)
    · exact .inr (.inr rfl)

/-- A handler's effect leaves one of the four bytes of `10_state.md` R16 in `fl`. -/
theorem Effect.fl_legal {i : Instr} {s s' : State} (h : Effect i s s')
    (hl : s.fl = 0 ∨ s.fl = 1 ∨ s.fl = 2 ∨ s.fl = 4) : s'.fl = 0 ∨ s'.fl = 1 ∨ s'.fl = 2 ∨ s'.fl = 4 := by
  cases h with
  | compares a b hi => exact .inr (compareFlags_cases _ _)
  | _ => exact hl

/-- Completing an instruction keeps the invariant of a machine without a fault record. -/
theorem State.Inv.completesWith {s t : State} {i : Instr} (hs : s.Inv) (hf : s.fault = none)
    (h : CompletesWith s i t) : t.Inv := by
  obtain ⟨-, hl, s', he, rfl⟩ := h
  have hft : s'.fault = none := he.fault_eq.trans hf
  exact {
    pc_le := hl
    mem_wf := he.mem_wf hs.mem_wf
    fl_legal := he.fl_legal hs.fl_legal
    fault_halts := fun hne => absurd hft hne
    record_legal := fun r hr => by cases hft.symm.trans hr }

/-- Settles O3: a Halted machine stays as it is; a Running one has no record, and then a fault entry and a completed
instruction both keep the invariant. -/
theorem stepKeepsInvariant : Obligations.StepKeepsInvariant := by
  intro s t hs h
  cases hr : s.run with
  | halted =>
    obtain rfl := Host.Outcome.next.inj ((step_of_halted hr).symm.trans h)
    exact hs
  | running =>
    rcases step_running_cases hr h with ⟨o, c, hc, rfl⟩ | ⟨-, i, hi⟩
    · exact hs.faultEntry hc
    · exact hs.completesWith (hs.fault_eq_none hr) hi

/-- Settles O2: reset's memory is empty, `fl` is 0 and there is no fault record. -/
theorem resetMeetsInvariant : Obligations.ResetMeetsInvariant where
  pc_le := Nat.zero_le _
  mem_wf := Memory.reset_wf
  fl_legal := .inl rfl
  fault_halts h := absurd rfl h
  record_legal r hr := by cases hr

/-! ## The move of `pc` and the end of a run -/

/-- A step that finds HLT at `pc` raises nothing. -/
theorem StepRaises.not_atHlt {s : State} {o : Option Byte} {c : Cause} (h : StepRaises s o c) : ¬ AtHlt s := by
  intro ha
  cases h with
  | noOpcode hp => exact absurd ha.1 (Nat.not_lt.2 hp)
  | noOperand _ hc =>
    have hn := ha.no_fetch_fault.1
    unfold OperandPastMemory at hc
    omega
  | unsupported _ _ hm => exact hm .hlt ha.2.symm
  | handler _ hb _ hc => exact hc.ne_hlt (opcode_eq_hlt_iff.1 (hb.symm.trans ha.2))

/-- Every instruction but HLT has an operand, so it is two bytes or more (`30_encoding.md` R45). -/
theorem operands_length_pos {i : Instr} (h : i ≠ .hlt) : 1 ≤ i.operands.length := by
  cases i <;> simp_all [Instr.operands]

/-- Settles O7: a fault entry leaves `pc` and never happens at HLT; an instruction completed moves `pc` past its bytes,
which are in memory, and only HLT, of one byte, halts. -/
theorem pcMovesForwardOnly : Obligations.PcMovesForwardOnly := by
  intro s t hr h
  rw [← and_imp]
  change _ ∧ (AtHlt s → _) ∧ (_ → ¬ AtHlt s → _)
  rcases step_running_cases hr h with ⟨o, c, hc, rfl⟩ | ⟨hp, i, hb, hl, s', he, rfl⟩
  · exact ⟨nofun, fun ha => absurd ha hc.not_atHlt, fun _ _ => ⟨by simp, rfl⟩⟩
  · have hi : AtHlt s ↔ i = .hlt := by simp [AtHlt, hp, hb, opcode_eq_hlt_iff]
    have hrun := he.run_eq
    rw [hi]
    by_cases hne : i = .hlt
    · subst hne
      exact ⟨fun ht => (by cases ht.symm.trans hrun), fun _ => ⟨hrun, rfl⟩, fun _ hn => absurd rfl hn⟩
    · rw [if_neg hne, hr] at hrun
      have := operands_length_pos hne
      exact ⟨fun _ => ⟨by simp; omega, hl⟩, fun e => absurd e hne, fun ht => by cases ht.symm.trans hrun⟩

/-- A step ends in Halted, or it moves `pc` up by 2 or more, to 256 at most. -/
theorem step_halted_or_advances {s t : State} (h : step s = .next t) :
    t.run = .halted ∨ (s.pc + 2 ≤ t.pc ∧ t.pc ≤ 256) := by
  cases hr : s.run with
  | halted =>
    obtain rfl := Host.Outcome.next.inj ((step_of_halted hr).symm.trans h)
    exact .inl hr
  | running =>
    cases ht : t.run with
    | halted => exact .inl rfl
    | running => exact .inr ((pcMovesForwardOnly s t hr h).1 ht)

/-- Where `pc` is at most `2 * n` below 256, `n + 1` steps end in Halted. -/
theorem run_halts (n : Nat) {s : State} (h : 256 ≤ s.pc + 2 * n) :
    ∃ t, Host.Core.run Sys2Proof.core (n + 1) s = .next t ∧ t.run = .halted := by
  induction n generalizing s with
  | zero =>
    obtain ⟨t, ht⟩ := stepAlwaysAnswersAState s
    refine ⟨t, by rw [run_succ_next 0 ht, run_zero], ?_⟩
    rcases step_halted_or_advances ht with hh | ⟨hlo, hhi⟩
    · exact hh
    · omega
  | succ n ih =>
    obtain ⟨t, ht⟩ := stepAlwaysAnswersAState s
    rw [run_succ_next (n + 1) ht]
    rcases step_halted_or_advances ht with hh | ⟨hlo, hhi⟩
    · exact ⟨t, run_of_halted (n + 1) hh, hh⟩
    · exact ih (by omega)

/-- Settles O6: from any `pc` 256 is at most 128 moves of 2 away, and the step after them halts. -/
theorem runHaltsWithin129Steps : Obligations.RunHaltsWithin129Steps := fun _ => run_halts 128 (by omega)

end Sys2Proof.Machine
end

section
/-! Proofs of `spec/30_encoding.md`: the round trip of R45 and R53 in both directions, what the source fixes of the
opcode map (sections 2 and 4), and the unsupported bytes (section 5). -/
namespace Sys2Proof

/-! ## Decoding what was encoded -/

/-- With the opcode byte of a mnemonic and its operand bytes read, decoding answers the mnemonic's instruction. -/
theorem decodeFrom_ok {ε : Type} {read : Nat → Except ε Byte} {m : Mnemonic} {o1 o2 : Byte}
    (h0 : read 0 = .ok (Config.opc m))
    (ho : operandBytes read (decodeByte (Config.opc m)).operandCount = .ok (o1, o2)) :
    decodeFrom read = .ok (m.build o1 o2) := by
  simp only [decodeFrom, h0, ho, ofByte?_opc]

/-- The operand bytes fetched from an instruction's own bytes, whatever follows them, build the instruction. -/
theorem operandBytes_encode (i : Instr) (rest : List Byte) :
    ∃ o1 o2, operandBytes (listRead (encode i ++ rest)) i.operands.length = .ok (o1, o2) ∧
      i.mnemonic.build o1 o2 = i := by
  cases i with
  | hlt => exact ⟨0, 0, rfl, rfl⟩
  | prn a | push a | pop a | inc a | dec a | not a => exact ⟨a, 0, rfl, rfl⟩
  | ldi a b | add a b | sub a b | mul a b | div a b | mod a b | cmp a b | and a b | or a b | xor a b | shl a b
  | shr a b => exact ⟨a, b, rfl, rfl⟩

/-- Settles O11: the opcode byte finds the mnemonic and counts the operands, which then build the instruction. -/
theorem decodeOfEncode : Obligations.DecodeOfEncode := by
  intro i rest
  obtain ⟨o1, o2, ho, hi⟩ := operandBytes_encode i rest
  rw [← Machine.opcode_operandCount] at ho
  exact (decodeFrom_ok rfl ho).trans (congrArg _ hi)

/-- The operand bytes fetched from a list stand in it right after the opcode byte. -/
theorem operandBytes_stand {b o1 o2 : Byte} {bs : List Byte} {n : Nat}
    (h : operandBytes (listRead (b :: bs)) n = .ok (o1, o2)) : ∃ rest, bs = [o1, o2].take n ++ rest := by
  rcases n with _ | _ | n
  · exact ⟨bs, rfl⟩
  · rcases bs with _ | ⟨x, bs⟩
    · cases h
    · cases h
      exact ⟨bs, rfl⟩
  · rcases bs with _ | ⟨x, _ | ⟨y, bs⟩⟩
    · cases h
    · cases h
    · cases h
      exact ⟨bs, by simp⟩

/-- The bytes of a mnemonic's instruction: the opcode byte and as many operand bytes as it counts. -/
theorem encode_build (m : Mnemonic) (o1 o2 : Byte) :
    encode (m.build o1 o2) = Config.opc m :: [o1, o2].take (decodeByte (Config.opc m)).operandCount := by
  cases m <;> rfl

/-- Settles O12: the first byte is the mnemonic's and the operand bytes stand after it. -/
theorem encodeOfDecode : Obligations.EncodeOfDecode := by
  intro bytes i h
  rcases bytes with _ | ⟨b, bs⟩
  · cases h
  · rcases decodeFrom_cases (listRead (b :: bs)) rfl with ⟨e, -, hx⟩ | ⟨o1, o2, ho, ⟨-, hx⟩ | ⟨m, rfl, hx⟩⟩
    · cases h.symm.trans hx
    · cases h.symm.trans hx
    · obtain rfl := Except.ok.inj (h.symm.trans hx)
      obtain ⟨rest, rfl⟩ := operandBytes_stand ho
      exact ⟨rest, by rw [encode_build, List.cons_append]⟩

/-! ## The opcode map -/

/-- No two mnemonics have the same byte, as each is found under its own. -/
theorem opc_injective {m n : Mnemonic} (h : Config.opc m = Config.opc n) : m = n := by
  have hmn : some m = some n := by rw [← ofByte?_opc, h, ofByte?_opc]
  exact Option.some.inj hmn

/-- Bit 5 is 0 for the five mnemonics outside the ALU class (`30_encoding.md` R49). -/
theorem opc_isAluOp_eq_false_iff (m : Mnemonic) :
    (decodeByte (Config.opc m)).isAluOp = false ↔ m ∈ [Mnemonic.hlt, .ldi, .prn, .push, .pop] := by
  cases m <;> decide

/-- Settles O14: the three bytes by the map; a byte for each mnemonic; the fields of each byte. -/
theorem opcodeMapMeetsSource : Obligations.OpcodeMapMeetsSource :=
  ⟨rfl, rfl, rfl, fun _ _ => opc_injective, fun i =>
    ⟨Machine.opcode_operandCount i, opc_isAluOp_eq_false_iff i.mnemonic⟩⟩

/-- Settles O15: each list is an instruction's bytes, but for the last, whose byte is no mnemonic's. -/
theorem specWordsDecode : Obligations.SpecWordsDecode :=
  ⟨decodeOfEncode .hlt [], decodeOfEncode (.ldi 0 8) [], decodeOfEncode (.prn 0) [], decodeOfEncode (.push 7) [],
    decodeOfEncode (.pop 2) [], decodeOfEncode (.add 0 1) [], decodeOfEncode (.inc 3) [], decodeOfEncode (.cmp 0 2) [],
    decodeOfEncode (.shl 2 1) [], decodeOfEncode (.ldi 255 1) [], decode_unsupported (by decide) (by decide)⟩

/-! ## Unsupported bytes -/

/-- No mnemonic's byte has operand count 3 (`30_encoding.md` R48). -/
theorem opc_operandCount_ne_three (m : Mnemonic) : (decodeByte (Config.opc m)).operandCount ≠ 3 := by
  cases m <;> decide

/-- A byte of operand count 3 is no mnemonic's. -/
theorem ofByte?_none_of_operandCount {b : Byte} (h : (decodeByte b).operandCount = 3) :
    Mnemonic.ofByte? b = none :=
  ofByte?_none_iff.2 fun m hm => opc_operandCount_ne_three m (hm ▸ h)

/-- The bytes in the dispatch table are the mnemonics' bytes, each once. -/
theorem supportedBytes_perm :
    ((List.range 256).filter fun n => (Mnemonic.ofByte? (BitVec.ofNat 8 n)).isSome).Perm
      (Mnemonic.all.map fun m => (Config.opc m).toNat) := by
  refine (List.perm_ext_iff_of_nodup (List.nodup_range.filter _) (by decide)).2 fun n => ?_
  simp only [List.mem_filter, List.mem_range, List.mem_map, Option.isSome_iff_exists]
  constructor
  · rintro ⟨hn, m, hm⟩
    refine ⟨m, m.mem_all, ?_⟩
    rw [← eq_opc_of_ofByte? hm, BitVec.toNat_ofNat, Nat.mod_eq_of_lt hn]
  · rintro ⟨m, -, rfl⟩
    exact ⟨(Config.opc m).isLt, m, by simp⟩

/-- The dispatch table has 19 of the 256 bytes. -/
theorem unsupportedBytes_length :
    ((List.range 256).filter fun n => (Mnemonic.ofByte? (BitVec.ofNat 8 n)).isNone).length = 237 := by
  have hall := List.length_eq_length_filter_add (l := List.range 256)
    fun n => (Mnemonic.ofByte? (BitVec.ofNat 8 n)).isSome
  rw [supportedBytes_perm.length_eq, List.length_map, List.length_range] at hall
  have h19 : Mnemonic.all.length = 19 := rfl
  simp only [Option.not_isSome] at hall
  omega
/-- Settles O17: all bytes but the mnemonics' 19; neither 0x00 nor a byte of operand count 3 is one of them. -/
theorem unsupportedBytesCount : Obligations.UnsupportedBytesCount :=
  ⟨unsupportedBytes_length, by decide, fun _ => ofByte?_none_of_operandCount⟩

/-- A byte from 0xC0 up has operand count 3. -/
theorem operandCount_eq_three {b : Byte} (h : 0xC0 ≤ b.toNat) : (decodeByte b).operandCount = 3 := by
  have hb : b.toNat < 256 := b.isLt
  rw [decodeByte_operandCount_eq]
  omega

/-- A list is rejected as unsupported where its first byte is no mnemonic's and two bytes follow it, the most that are
fetched (`40_run_loop.md` R63, D6). -/
theorem decode_unsupported_of_two {b : Byte} (o1 o2 : Byte) (rest : List Byte) (hb : Mnemonic.ofByte? b = none) :
    decode (b :: o1 :: o2 :: rest) = .error (.unsupported b) := by
  have ho := operandBytes_ok (listRead (b :: o1 :: o2 :: rest)) (decodeByte b).operandCount rfl rfl
  rcases decodeFrom_cases (listRead (b :: o1 :: o2 :: rest)) rfl with ⟨e, he, -⟩ | ⟨p1, p2, -, ⟨-, hx⟩ | ⟨m, hm, -⟩⟩
  · cases he.symm.trans ho
  · exact hx
  · exact absurd hm.symm (ofByte?_none_iff.1 hb m)

/-! ## Decoding through another read -/

section
variable {ε ε' : Type} {read : Nat → Except ε Byte} {read' : Nat → Except ε' Byte}

/-- Operand bytes fetched through one read are fetched through any other that answers the same bytes. -/
theorem operandBytes_mono (h : ∀ k < 3, ∀ b, read k = .ok b → read' k = .ok b) {n : Nat} {p : Byte × Byte}
    (hp : operandBytes read n = .ok p) : operandBytes read' n = .ok p := by
  rcases n with _ | _ | n
  · cases hp
    rfl
  · cases h1 : read 1 with
    | error e => simp [operandBytes, h1] at hp
    | ok o1 => simpa [operandBytes, h1, h 1 (by decide) o1 h1] using hp
  · cases h1 : read 1 with
    | error e => simp [operandBytes, h1] at hp
    | ok o1 =>
      cases h2 : read 2 with
      | error e => simp [operandBytes, h1, h2] at hp
      | ok o2 => simpa [operandBytes, h1, h2, h 1 (by decide) o1 h1, h 2 (by decide) o2 h2] using hp

/-- An instruction decoded through one read is decoded through any other that answers the same bytes. -/
theorem decodeFrom_mono (h : ∀ k < 3, ∀ b, read k = .ok b → read' k = .ok b) {i : Instr}
    (hi : decodeFrom read = .ok i) : decodeFrom read' = .ok i := by
  cases h0 : read 0 with
  | error e => cases hi.symm.trans (decodeFrom_noOpcode read h0)
  | ok ir =>
    rcases decodeFrom_cases read h0 with ⟨e, -, hx⟩ | ⟨o1, o2, ho, ⟨-, hx⟩ | ⟨m, rfl, hx⟩⟩
    · cases hi.symm.trans hx
    · cases hi.symm.trans hx
    · obtain rfl := Except.ok.inj (hi.symm.trans hx)
      exact decodeFrom_ok (h 0 (by decide) _ h0) (operandBytes_mono h ho)

end

end Sys2Proof
end

section
/-! Proofs of `30_encoding.md` R48 and `40_run_loop.md` R67: what the step makes of the bytes at `pc`, next to what
`decode` makes of them as a list. -/
namespace Sys2Proof.Machine

/-- Settles O22: up to 253 both operand bytes are in memory and the dispatch faults; above, the operand fetch does. -/
theorem countThreeFetchesTwoBytes : Obligations.CountThreeFetchesTwoBytes := by
  refine ⟨fun s hr hp hb => ?_, fun b o1 o2 rest hb =>
    decode_unsupported_of_two o1 o2 rest (ofByte?_none_of_operandCount (operandCount_eq_three hb))⟩
  have hn := operandCount_eq_three hb
  by_cases h253 : s.pc ≤ 253
  · have hc : ¬ OperandPastMemory s := by
      unfold OperandPastMemory
      omega
    have hm := ofByte?_none_iff.1 (ofByte?_none_of_operandCount hn)
    exact ⟨_, step_unsupported hr hp hc hm, by rw [if_pos h253]; exact faultsWith_faultEntry _ _ s⟩
  · exact ⟨_, step_noOperand hr rfl (by omega), by rw [if_neg h253]; exact faultsWith_faultEntry _ _ s⟩

/-! ## The step's fetch and the list decoder -/

/-- The bytes at `pc` that exist, by position. -/
theorem codeBytes_getElem? (s : State) {k : Nat} (hk : k < 3) :
    (codeBytes s)[k]? = if s.pc + k < 256 then some (s.mem.get (s.pc + k)) else none := by
  unfold codeBytes
  rcases (by omega : 256 ≤ s.pc ∨ s.pc = 255 ∨ s.pc = 254 ∨ s.pc < 254) with h | h | h | h
  · have hp : ∀ j, ¬ s.pc + j < 256 := by omega
    simp [hp, show ¬ s.pc < 256 from hp 0]
  · interval_cases k <;> simp [h]
  · interval_cases k <;> simp [h]
  · have hp : ∀ j < 3, s.pc + j < 256 := by omega
    interval_cases k <;> simp [hp, show s.pc < 256 from hp 0 (by decide)]

/-- A byte read from the list of the bytes at `pc` is the one that the machine's fetch reads there. -/
theorem codeRead_of_listRead {s : State} {k : Nat} (hk : k < 3) (b : Byte)
    (h : listRead (codeBytes s) k = .ok b) : codeRead s k = .ok b := by
  simp only [listRead, codeBytes_getElem? s hk] at h
  by_cases hp : s.pc + k < 256
  · rw [if_pos hp] at h
    cases h
    exact memRead_ok s hp
  · rw [if_neg hp] at h
    cases h

/-- Settles O18: what the list of the bytes at `pc` decodes to, the machine's fetch decodes too. -/
theorem stepRunsDecodedInstruction : Obligations.StepRunsDecodedInstruction := by
  intro s i hr h
  have hd : decodeFrom (codeRead s) = .ok i := decodeFrom_mono (fun _ hk => codeRead_of_listRead hk) h
  exact step_of_fetch hr (by simp only [fetchInstr, hd])

end Sys2Proof.Machine
end

section
/-! Proofs about every instruction at once: `60_exceptions.md` R93 and R98, the first bad register operand;
`40_run_loop.md` R65 and R66, where an instruction completes; `10_state.md` section 1 and `20_memory.md` section 1,
what it writes. -/
namespace Sys2Proof.Machine

/-! ## The first bad register operand -/

/-- The first of these operand bytes that names no register. -/
def firstBad (os : List Byte) : Option Byte := os.find? fun o => decide (8 ≤ o.toNat)

/-- A handler that checks one operand raises for it. -/
theorem regIndex_firstBad {o o1 : Byte} (h : firstBad [o1] = some o) (k : Fin 8 → Except Cause State) :
    regIndex o1 >>= k = .error (.addressOutOfRange .reg o.toNat) := by
  obtain ⟨h8, rfl⟩ : 8 ≤ o1.toNat ∧ o1 = o := by simpa [firstBad, List.find?_singleton] using h
  rw [regIndex_error h8]
  rfl

/-- A handler that checks two operands, then goes on, raises for the first bad one. -/
theorem regIndex_regIndex_firstBad {o o1 o2 : Byte} (h : firstBad [o1, o2] = some o)
    (k : Fin 8 → Fin 8 → Except Cause State) :
    (do let a ← regIndex o1; let b ← regIndex o2; k a b) = .error (.addressOutOfRange .reg o.toNat) := by
  by_cases h1 : 8 ≤ o1.toNat
  · exact regIndex_firstBad (by simpa [firstBad, h1] using h) _
  · have h2 : firstBad [o2] = some o := by simpa [firstBad, h1] using h
    rw [regIndex_ok (Nat.not_le.1 h1)]
    exact regIndex_firstBad h2 _

/-- A handler that raises is completed by the fault entry, whatever form it is given in. -/
theorem complete_of_error {ir : Byte} {s : State} {x : Except Cause State} {c : Cause} (h : x = .error c) :
    complete ir s x = .next (faultEntry (some ir) c s) := h ▸ complete_error ir s c

/-- An instruction with a bad register operand enters the fault of its first, before its own check. -/
theorem exec_firstBad {i : Instr} {o : Byte} (s : State) (h : firstBad i.regOperands = some o) :
    exec i s = .next (faultEntry (some i.opcode) (.addressOutOfRange .reg o.toNat) s) := by
  cases i with
  | hlt => cases h
  | ldi a _ | prn a | push a | pop a | inc a | dec a | not a => exact complete_of_error (regIndex_firstBad h _)
  | add a b | sub a b | mul a b | div a b | mod a b | cmp a b | and a b | or a b | xor a b | shl a b | shr a b =>
    exact complete_of_error (regIndex_regIndex_firstBad h _)

/-- Settles O26: every handler checks its operands in order before anything else. -/
theorem badRegisterOperandFaultsFirst : Obligations.BadRegisterOperandFaultsFirst := fun _ s _ h =>
  ⟨_, exec_firstBad s h, faultsWith_faultEntry _ _ s⟩

/-! ## Completing -/

/-- An instruction's bytes are its opcode byte and its operands. -/
theorem encode_length (i : Instr) : (encode i).length = i.operands.length + 1 := rfl

/-- Settles O27: where an instruction completes its handler raises nothing, and the advance follows its effect. -/
theorem everyInstructionCompletes : Obligations.EveryInstructionCompletes := by
  intro i s hc
  obtain ⟨t, ht⟩ := exec_answers i s
  rcases exec_next_cases ht with ⟨s', he, rfl⟩ | ⟨c, hr, -⟩
  · exact ⟨_, ht, he.fault_eq, by rw [State.setPc_pc, he.pc_eq, encode_length], he.run_eq⟩
  · exact absurd hc (not_completes_of_raises hr)

/-- Settles O28: an effect happens only where the instruction completes, and a handler raises only where it does not. -/
theorem faultsExactlyWhereIncomplete : Obligations.FaultsExactlyWhereIncomplete := by
  intro i s t hf h
  rcases exec_next_cases h with ⟨s', he, rfl⟩ | ⟨c, hr, rfl⟩
  · exact .inl ⟨completes_of_effect he, he.fault_eq.trans hf, by rw [State.setPc_pc, he.pc_eq, encode_length]⟩
  · exact .inr ⟨not_completes_of_raises hr, by simp, rfl⟩

/-! ## What an instruction writes -/

/-- No instruction but PUSH writes memory. -/
theorem exec_mem {i : Instr} {s t : State} (h : exec i s = .next t) (hi : ∀ o, i ≠ .push o) : t.mem = s.mem := by
  rcases exec_next_cases h with ⟨s', he, rfl⟩ | ⟨c, -, rfl⟩
  · cases he with
    | pushes a ha => exact absurd ha (hi _)
    | _ => rfl
  · rfl

/-- No instruction but PUSH and POP depends on memory. -/
theorem exec_with_mem {i : Instr} {s t : State} (h : exec i s = .next t) (hpush : ∀ o, i ≠ .push o)
    (hpop : ∀ o, i ≠ .pop o) (m : Memory) : exec i { s with mem := m } = .next { t with mem := m } := by
  refine exec_map i s (fun s => { s with mem := m }) ?_ ?_ ?_ ?_ ?_ ?_ ?_ ?_ (fun ⟨o, ho⟩ => absurd ho (hpush o))
    (fun ⟨o, ho⟩ => absurd ho (hpop o)) h <;> intros <;> rfl

/-- Settles O31: the byte PUSH stores, the frame of the others, and the transport of the memory. -/
theorem memoryTouchedByStackOnly : Obligations.MemoryTouchedByStackOnly := fun _ _ _ h =>
  ⟨fun _ hb => exec_mem_get h fun o ho _ => hb ⟨o, ho⟩, exec_mem h, exec_with_mem h⟩

/-- Settles O32 by the frame of the registers. -/
theorem registersWrittenByDestinationOnly : Obligations.RegistersWrittenByDestinationOnly := fun _ _ _ _ => exec_reg

end Sys2Proof.Machine
end

section
/-! Proofs of `10_state.md` sections 8 and 9 and `70_reset_and_hazards.md`, the host's port: R24, Reset; R26, Load and
Start; R28, the trace snapshot; with `60_exceptions.md` R91, the table of fault records. -/
namespace Sys2Proof.Machine

/-- Settles O1: the eight registers one by one, and the other fields as `State.reset` gives them. -/
theorem resetLeavesEveryField : Obligations.ResetLeavesEveryField :=
  ⟨by decide, rfl, rfl, rfl, rfl, rfl, fun _ => rfl⟩

/-- The host's load changes memory only. -/
theorem hostLoad_eq (image : List (Fin 256 × Byte)) (s : State) :
    hostLoad image s = { s with mem := (hostLoad image s).mem } := by
  induction image generalizing s with
  | nil => rfl
  | cons p image ih => exact ih (s.setMem p.1 p.2)

/-- Loading one more pair stores it after the others. -/
theorem hostLoad_append_singleton (image : List (Fin 256 × Byte)) (p : Fin 256 × Byte) (s : State) :
    hostLoad (image ++ [p]) s = (hostLoad image s).setMem p.1 p.2 := List.foldl_append

/-- The last byte that an image loads at an address. -/
def lastLoaded (image : List (Fin 256 × Byte)) (a : Fin 256) : Option Byte :=
  (image.reverse.find? fun p => decide (p.1 = a)).map Prod.snd

/-- The last byte loaded once one more pair is. -/
theorem lastLoaded_append_singleton (image : List (Fin 256 × Byte)) (p : Fin 256 × Byte) (a : Fin 256) :
    lastLoaded (image ++ [p]) a = if p.1 = a then some p.2 else lastLoaded image a := by
  by_cases h : p.1 = a <;> simp [lastLoaded, h]

/-- After a load into a memory in its canonical form each cell holds the last byte loaded there, or what it held. -/
theorem hostLoad_mem_get (image : List (Fin 256 × Byte)) {s : State} (hw : s.mem.wf) (a : Fin 256) :
    (hostLoad image s).mem.get a = (lastLoaded image a).getD (s.mem.get a) := by
  induction image using List.reverseRecOn with
  | nil => rfl
  | append_singleton image p ih =>
    rw [hostLoad_append_singleton, lastLoaded_append_singleton, State.setMem_mem]
    by_cases h : p.1 = a
    · rw [if_pos h, h, Memory.get_set_same _ _ _ (hostLoad_wf image s hw), Option.getD_some]
    · rw [if_neg h, Memory.get_set_other _ _ (fun e => h (Fin.ext e.symm)), ih]

/-- Settles O8: Load changes memory only, Start `run` only, and reset's memory reads 0 everywhere. -/
theorem launchLoadsAndStarts : Obligations.LaunchLoadsAndStarts := by
  refine fun image => ⟨?_, fun a => ?_⟩
  · exact congrArg (·.setRun .running) (hostLoad_eq image State.reset)
  · refine (hostLoad_mem_get image Memory.reset_wf a).trans ?_
    unfold lastLoaded
    cases image.reverse.find? fun p => decide (p.1 = a) <;> rfl

/-- Settles O9: the snapshot copies `pc` and the registers and reads each byte below 256. -/
theorem snapshotShowsThreeBytes : Obligations.SnapshotShowsThreeBytes := fun _ => ⟨rfl, rfl, rfl, rfl, rfl⟩

/-- Settles O24: fault entry records the cause's kind, code and information. -/
theorem faultCodesFollowTheTable : Obligations.FaultCodesFollowTheTable := fun o s n sp b =>
  ⟨faultEntry_fault s o (.addressOutOfRange sp n), faultEntry_fault s o (.unsupportedOperation b),
    faultEntry_fault s o .divisionByZero, faultEntry_fault s o .stackUnderflow, faultEntry_fault s o .stackOverflow⟩

end Sys2Proof.Machine
end
